-- ==== Sys2Proof/Word.lean ====
section
/-! DEFINITION. The word types of the hardware: bytes, 16-bit words, 12-bit addresses, register numbers. -/

namespace Sys2Proof

/-- An 8-bit value: a general register, a timer, a memory byte (10_state.md R17, R28, R29). -/
abbrev Byte := BitVec 8

/-- A 16-bit value: an opcode, `PC`, `I`, a stack entry (10_state.md R22, R25, R26; 30_encoding.md R56). -/
abbrev Word := BitVec 16

/-- The 12-bit address immediate `nnn` (30_encoding.md R58). -/
abbrev Imm12 := BitVec 12

/-- A register number: every 4-bit value names one of `V[0]` to `V[15]` (10_state.md R17; 30_encoding.md R59). -/
abbrev Reg := Fin 16

/-- A byte zero-extended to 16 bits (`zext_16`, 00_scope.md R10). -/
abbrev zext16 (b : Byte) : Word := b.setWidth 16

/-- The 12-bit immediate zero-extended to 16 bits (30_encoding.md R59). -/
abbrev zextImm (a : Imm12) : Word := a.setWidth 16

/-- One bit as a byte 0 or 1: the value a flag leaves in `VF` (10_state.md R19). -/
abbrev flagByte (f : Bool) : Byte := if f then 1 else 0

end Sys2Proof
end

