-- ==== Sys2Proof/Config.lean ====
section
/-! DEFINITION. What is fixed for the machine: the parameters of 00_scope.md R8, and the free values a step's inputs
take when the host's list of inputs is empty. -/

namespace Sys2Proof.Config

/-- `MEM_SIZE` (00_scope.md R8; 20_memory.md R41). UNVERIFIED numeric literals, safe or unsafe: log 37. -/
abbrev memSize : Nat := 4096

/-- `PROGRAM_BASE` (00_scope.md R8; 20_memory.md R48), also the reset value of `PC` (10_state.md R24). -/
abbrev programBase : Nat := 0x200

/-- `GLYPH_COUNT` (00_scope.md R8). -/
abbrev glyphCount : Nat := 16

/-- `GLYPH_BYTES` of one glyph (00_scope.md R8): glyph `g` starts at `5 * g` (20_memory.md R48). -/
abbrev glyphBytes : Nat := 5

/-- `DISPLAY_W` (00_scope.md R8). -/
abbrev displayWidth : Nat := 64

/-- `DISPLAY_H` (00_scope.md R8). -/
abbrev displayHeight : Nat := 32

/-- A sprite is 8 pixels wide (40_display.md R74). -/
abbrev spriteWidth : Nat := 8

/-- FREE VALUE. The key snapshot of the step numbered by its argument, where the host's list holds no input
(10_state.md R36, R39: the input is any value). DESIGN CHOICE, safe: log 2. -/
opaque freeKeys : Nat → Vector Bool 16

/-- FREE VALUE. The number of 1/60 s ticks of that step (93_implementation_defined.md row 4). DESIGN CHOICE, safe: log 2. -/
opaque freeTicks : Nat → Nat

/-- FREE VALUE. The random byte of that step (42_alu.md R99: a free input byte). DESIGN CHOICE, safe: log 2. -/
opaque freeRnd : Nat → Byte

end Sys2Proof.Config
end

