-- ==== Sys2Proof/Syntax.lean ====
section
/-! DEFINITION. The instructions: one constructor per row of spec/opcode_table.json (30_encoding.md R62). -/

namespace Sys2Proof

/-- The 33 instructions with the operands their rows name. Register numbers are `Reg`, so every operand value of the
encoding, and no other, can be written (30_encoding.md R59). The operand order is that of the opcode, from its high
bits. `SHR` and `SHL` keep the `y` field, which the decoder reads and the machine ignores (42_alu.md R96, R98). -/
inductive Instr where
  | cls                              -- 00E0
  | ret                              -- 00EE
  | jp      (nnn : Imm12)            -- 1NNN
  | call    (nnn : Imm12)            -- 2NNN
  | seImm   (x : Reg) (nn : Byte)    -- 3XNN
  | sneImm  (x : Reg) (nn : Byte)    -- 4XNN
  | seReg   (x y : Reg)              -- 5XY0
  | ldImm   (x : Reg) (nn : Byte)    -- 6XNN
  | addImm  (x : Reg) (nn : Byte)    -- 7XNN
  | ldReg   (x y : Reg)              -- 8XY0
  | orReg   (x y : Reg)              -- 8XY1
  | andReg  (x y : Reg)              -- 8XY2
  | xorReg  (x y : Reg)              -- 8XY3
  | addReg  (x y : Reg)              -- 8XY4
  | sub     (x y : Reg)              -- 8XY5
  | shr     (x y : Reg)              -- 8XY6
  | subn    (x y : Reg)              -- 8XY7
  | shl     (x y : Reg)              -- 8XYE
  | sneReg  (x y : Reg)              -- 9XY0
  | ldI     (nnn : Imm12)            -- ANNN
  | jpV0    (nnn : Imm12)            -- BNNN
  | rnd     (x : Reg) (nn : Byte)    -- CXNN
  | drw     (x y : Reg) (n : Fin 16) -- DXYN
  | skp     (x : Reg)                -- EX9E
  | sknp    (x : Reg)                -- EXA1
  | ldVxDt  (x : Reg)                -- FX07
  | ldDtVx  (x : Reg)                -- FX15
  | ldStVx  (x : Reg)                -- FX18
  | addI    (x : Reg)                -- FX1E
  | ldF     (x : Reg)                -- FX29
  | ldB     (x : Reg)                -- FX33
  | stRegs  (x : Reg)                -- FX55
  | ldRegs  (x : Reg)                -- FX65
  deriving DecidableEq, Repr

end Sys2Proof
end

