-- ==== Sys2Proof/WellFormed.lean ====
section
/-! DEFINITION. Well-formedness: every operand field of an instruction fits in its bits of the opcode, and a program
image fits in the program area. -/

namespace Sys2Proof

/-- An operand field of an opcode, bits `hi` down to `lo`, with the value an instruction puts there (30_encoding.md
R58). -/
structure FieldValue where
  hi : Nat
  lo : Nat
  value : Nat
  deriving DecidableEq, Repr

/-- The value fits in the field's bits. -/
def FieldValue.fits (f : FieldValue) : Bool := f.lo ≤ f.hi && f.value < 2 ^ (f.hi + 1 - f.lo)

/-- The field `x`, opcode[11:8] (30_encoding.md R58). -/
def FieldValue.x (r : Reg) : FieldValue := ⟨11, 8, r.val⟩

/-- The field `y`, opcode[7:4]. -/
def FieldValue.y (r : Reg) : FieldValue := ⟨7, 4, r.val⟩

/-- The field `n`, opcode[3:0]. -/
def FieldValue.n (n : Fin 16) : FieldValue := ⟨3, 0, n.val⟩

/-- The field `nn`, opcode[7:0]. -/
def FieldValue.nn (b : Byte) : FieldValue := ⟨7, 0, b.toNat⟩

/-- The field `nnn`, opcode[11:0]. -/
def FieldValue.nnn (a : Imm12) : FieldValue := ⟨11, 0, a.toNat⟩

/-- The operand fields of each instruction: the "fields" of its row of spec/opcode_table.json. -/
def Instr.fields : Instr → List FieldValue
  | .cls | .ret => []
  | .jp a | .call a | .ldI a | .jpV0 a => [.nnn a]
  | .seImm r b | .sneImm r b | .ldImm r b | .addImm r b | .rnd r b => [.x r, .nn b]
  | .seReg r q | .sneReg r q | .ldReg r q | .orReg r q | .andReg r q | .xorReg r q | .addReg r q | .sub r q | .shr r q
  | .subn r q | .shl r q => [.x r, .y q]
  | .drw r q n => [.x r, .y q, .n n]
  | .skp r | .sknp r | .ldVxDt r | .ldDtVx r | .ldStVx r | .addI r | .ldF r | .ldB r | .stRegs r | .ldRegs r => [.x r]

/-- An instruction is well-formed when each of its operand values fits in its field. The operand types already say so
(every 4-bit value is a register, 30_encoding.md R59), so this holds of every `Instr`; `FieldValue.fits` is the check. -/
def Instr.wellFormed (i : Instr) : Bool := i.fields.all FieldValue.fits

/-- A program image that `load_program` accepts: it fits in memory from 0x200 (20_memory.md R55). -/
def imageFits (bytes : List Byte) : Bool := bytes.length + Config.programBase ≤ Config.memSize

end Sys2Proof
end

