-- ==== Sys2Proof/Decode.lean ====
section
/-! DEFINITION. The decoder, total on 16-bit words and on bytes, the encoder, and the opcode table's rows as masks and
matches (30_encoding.md R56 to R67). The selector values are PRESUMED, unsafe: log 6. -/

namespace Sys2Proof

/-- Why a decoder gives no instruction. -/
inductive DecodeError where
  /-- `Invalid` of 30_encoding.md R67: the opcode matches no row of R62. The step raises `InvalidOpcode` (R64). -/
  | invalid (opcode : Word)
  /-- Fewer than two bytes: no opcode at all. The machine's fetch reads two bytes, so no step meets this. -/
  | tooShort
  deriving DecidableEq, Repr

/-! ### Fields (30_encoding.md R58) -/

/-- The operation family, opcode[15:12]. -/
def fieldF (w : Word) : BitVec 4 := w.extractLsb' 12 4

/-- opcode[11:8]. -/
def fieldX (w : Word) : Reg := (w.extractLsb' 8 4).toFin

/-- opcode[7:4]. -/
def fieldY (w : Word) : Reg := (w.extractLsb' 4 4).toFin

/-- opcode[3:0], as the count or the selector nibble. -/
def fieldN (w : Word) : Fin 16 := (w.extractLsb' 0 4).toFin

/-- opcode[7:0], as the byte immediate or the selector byte. -/
def fieldNN (w : Word) : Byte := w.extractLsb' 0 8

/-- opcode[11:0]. -/
def fieldNNN (w : Word) : Imm12 := w.extractLsb' 0 12

/-! ### The decoder (30_encoding.md R61, R62, R67) -/

/-- Family 0: the two fixed words. -/
def decodeFamily0 (w : Word) : Except DecodeError Instr :=
  if w = 0x00E0 then .ok .cls else if w = 0x00EE then .ok .ret else .error (.invalid w)

/-- Family 8: the selector nibble names the ALU operation. -/
def decodeFamily8 (w : Word) : Except DecodeError Instr :=
  match (fieldN w).val with
  | 0x0 => .ok (.ldReg (fieldX w) (fieldY w))
  | 0x1 => .ok (.orReg (fieldX w) (fieldY w))
  | 0x2 => .ok (.andReg (fieldX w) (fieldY w))
  | 0x3 => .ok (.xorReg (fieldX w) (fieldY w))
  | 0x4 => .ok (.addReg (fieldX w) (fieldY w))
  | 0x5 => .ok (.sub (fieldX w) (fieldY w))
  | 0x6 => .ok (.shr (fieldX w) (fieldY w))
  | 0x7 => .ok (.subn (fieldX w) (fieldY w))
  | 0xE => .ok (.shl (fieldX w) (fieldY w))
  | _ => .error (.invalid w)

/-- Family E: the selector byte. -/
def decodeFamilyE (w : Word) : Except DecodeError Instr :=
  match (fieldNN w).toNat with
  | 0x9E => .ok (.skp (fieldX w))
  | 0xA1 => .ok (.sknp (fieldX w))
  | _ => .error (.invalid w)

/-- Family F: the selector byte. -/
def decodeFamilyF (w : Word) : Except DecodeError Instr :=
  match (fieldNN w).toNat with
  | 0x07 => .ok (.ldVxDt (fieldX w))
  | 0x15 => .ok (.ldDtVx (fieldX w))
  | 0x18 => .ok (.ldStVx (fieldX w))
  | 0x1E => .ok (.addI (fieldX w))
  | 0x29 => .ok (.ldF (fieldX w))
  | 0x33 => .ok (.ldB (fieldX w))
  | 0x55 => .ok (.stRegs (fieldX w))
  | 0x65 => .ok (.ldRegs (fieldX w))
  | _ => .error (.invalid w)

/-- Families 5 and 9: the selector nibble must be 0 (30_encoding.md R64). -/
def ifSelector0 (w : Word) (i : Instr) : Except DecodeError Instr :=
  if (fieldN w).val = 0 then .ok i else .error (.invalid w)

/-- Decode one opcode: a function of its 16 bits alone (30_encoding.md R66, R67). -/
def decode (w : Word) : Except DecodeError Instr :=
  match (fieldF w).toNat with
  | 0x0 => decodeFamily0 w
  | 0x1 => .ok (.jp (fieldNNN w))
  | 0x2 => .ok (.call (fieldNNN w))
  | 0x3 => .ok (.seImm (fieldX w) (fieldNN w))
  | 0x4 => .ok (.sneImm (fieldX w) (fieldNN w))
  | 0x5 => ifSelector0 w (.seReg (fieldX w) (fieldY w))
  | 0x6 => .ok (.ldImm (fieldX w) (fieldNN w))
  | 0x7 => .ok (.addImm (fieldX w) (fieldNN w))
  | 0x8 => decodeFamily8 w
  | 0x9 => ifSelector0 w (.sneReg (fieldX w) (fieldY w))
  | 0xA => .ok (.ldI (fieldNNN w))
  | 0xB => .ok (.jpV0 (fieldNNN w))
  | 0xC => .ok (.rnd (fieldX w) (fieldNN w))
  | 0xD => .ok (.drw (fieldX w) (fieldY w) (fieldN w))
  | 0xE => decodeFamilyE w
  | 0xF => decodeFamilyF w
  | _ => .error (.invalid w)

/-- An opcode from its two bytes, the byte at the lower address in the high half (20_memory.md R45). -/
def opcodeOf (hi lo : Byte) : Word := hi ++ lo

/-- Decode the first instruction of a byte sequence, and give the bytes after it. -/
def decodeBytes : List Byte → Except DecodeError (Instr × List Byte)
  | hi :: lo :: rest =>
    match decode (opcodeOf hi lo) with
    | .ok i => .ok (i, rest)
    | .error e => .error e
  | _ => .error .tooShort

/-! ### The encoder, from the formats of 30_encoding.md R60 and the map of R62 -/

/-- Format `ADDR`. -/
def wordAddr (f : BitVec 4) (nnn : Imm12) : Word := f ++ nnn

/-- Format `XNN`. -/
def wordXNN (f : BitVec 4) (x : Reg) (nn : Byte) : Word := f ++ BitVec.ofFin (w := 4) x ++ nn

/-- Formats `XYS` and `XYN`: the low nibble is the selector or the count. -/
def wordXYN (f : BitVec 4) (x y : Reg) (n : BitVec 4) : Word :=
  f ++ BitVec.ofFin (w := 4) x ++ BitVec.ofFin (w := 4) y ++ n

/-- Format `XS`. -/
def wordXS (f : BitVec 4) (x : Reg) (s : Byte) : Word := wordXNN f x s

/-- The opcode of an instruction. -/
def encode : Instr → Word
  | .cls => 0x00E0
  | .ret => 0x00EE
  | .jp nnn => wordAddr 0x1 nnn
  | .call nnn => wordAddr 0x2 nnn
  | .seImm x nn => wordXNN 0x3 x nn
  | .sneImm x nn => wordXNN 0x4 x nn
  | .seReg x y => wordXYN 0x5 x y 0x0
  | .ldImm x nn => wordXNN 0x6 x nn
  | .addImm x nn => wordXNN 0x7 x nn
  | .ldReg x y => wordXYN 0x8 x y 0x0
  | .orReg x y => wordXYN 0x8 x y 0x1
  | .andReg x y => wordXYN 0x8 x y 0x2
  | .xorReg x y => wordXYN 0x8 x y 0x3
  | .addReg x y => wordXYN 0x8 x y 0x4
  | .sub x y => wordXYN 0x8 x y 0x5
  | .shr x y => wordXYN 0x8 x y 0x6
  | .subn x y => wordXYN 0x8 x y 0x7
  | .shl x y => wordXYN 0x8 x y 0xE
  | .sneReg x y => wordXYN 0x9 x y 0x0
  | .ldI nnn => wordAddr 0xA nnn
  | .jpV0 nnn => wordAddr 0xB nnn
  | .rnd x nn => wordXNN 0xC x nn
  | .drw x y n => wordXYN 0xD x y (BitVec.ofFin (w := 4) n)
  | .skp x => wordXS 0xE x 0x9E
  | .sknp x => wordXS 0xE x 0xA1
  | .ldVxDt x => wordXS 0xF x 0x07
  | .ldDtVx x => wordXS 0xF x 0x15
  | .ldStVx x => wordXS 0xF x 0x18
  | .addI x => wordXS 0xF x 0x1E
  | .ldF x => wordXS 0xF x 0x29
  | .ldB x => wordXS 0xF x 0x33
  | .stRegs x => wordXS 0xF x 0x55
  | .ldRegs x => wordXS 0xF x 0x65

/-- The two bytes of a word as memory holds them: high byte first (20_memory.md R45). -/
def wordBytes (w : Word) : List Byte := [w.extractLsb' 8 8, w.extractLsb' 0 8]

/-- An instruction's bytes as memory holds them. -/
def encodeBytes (i : Instr) : List Byte := wordBytes (encode i)

/-- The 16-bit word that the opcode table's numbering gives from `nbits` bits of `w` (bit 0 is the least significant
bit of the word; bits above `nbits` are 0). -/
def tableWord (nbits w : Nat) : Word := BitVec.ofNat 16 (w % 2 ^ nbits)

/-- The instruction this decoder reads from the bytes of the word the table numbers `w`. -/
def decodeTableWord (nbits w : Nat) : Option Instr :=
  match decodeBytes (wordBytes (tableWord nbits w)) with
  | .ok (i, _) => some i
  | .error _ => none

/-! ### The opcode table as masks and matches

The rows of spec/opcode_table.json, each (mask, match); a second account of which words are valid, against which the
decoder is stated. -/

/-- Formats with the family nibble alone fixed: families 1, 2, 3, 4, 6, 7, A, B, C, D (30_encoding.md R61). -/
def familyRows : List (Word × Word) :=
  [(0xF000, 0x1000), (0xF000, 0x2000), (0xF000, 0x3000), (0xF000, 0x4000), (0xF000, 0x6000), (0xF000, 0x7000),
   (0xF000, 0xA000), (0xF000, 0xB000), (0xF000, 0xC000), (0xF000, 0xD000)]

/-- Rows with a selector nibble: families 5, 8, 9. -/
def nibbleRows : List (Word × Word) :=
  [(0xF00F, 0x5000), (0xF00F, 0x8000), (0xF00F, 0x8001), (0xF00F, 0x8002), (0xF00F, 0x8003), (0xF00F, 0x8004),
   (0xF00F, 0x8005), (0xF00F, 0x8006), (0xF00F, 0x8007), (0xF00F, 0x800E), (0xF00F, 0x9000)]

/-- Rows with a selector byte: families E, F. -/
def byteRows : List (Word × Word) :=
  [(0xF0FF, 0xE09E), (0xF0FF, 0xE0A1), (0xF0FF, 0xF007), (0xF0FF, 0xF015), (0xF0FF, 0xF018), (0xF0FF, 0xF01E),
   (0xF0FF, 0xF029), (0xF0FF, 0xF033), (0xF0FF, 0xF055), (0xF0FF, 0xF065)]

/-- All 33 rows. -/
def opcodeRows : List (Word × Word) := [(0xFFFF, 0x00E0), (0xFFFF, 0x00EE)] ++ familyRows ++ nibbleRows ++ byteRows

/-- A word has a row's pattern. -/
def matchesRow (w : Word) (row : Word × Word) : Bool := w &&& row.1 == row.2

/-- A word is one of the valid patterns of 30_encoding.md R62. -/
def validOpcode (w : Word) : Bool := opcodeRows.any (matchesRow w)

end Sys2Proof
end

