-- ==== Sys2Proof/Machine/State.lean ====
section
/-! DEFINITION. The state of the core, the reasons a step stops, and the state after reset. -/

namespace Sys2Proof.Machine

/-- Memory as the list of the bytes that differ from what an unlisted address reads as (`Memory.wf` says the form;
20_memory.md R41). -/
abbrev Memory := List Host.Cell

/-- The display: row `y` holds cells `64 * y` to `64 * y + 63`, the cell of column `x` in bit `x`, so cell `c` is bit
`c mod 64` of row `c div 64` (10_state.md R30; DESIGN CHOICE, safe: log 30). -/
abbrev Display := Vector (BitVec 64) 32

/-- The inputs of one `step(keys, ticks, rnd)` (10_state.md R36): the key snapshot, the number of 1/60 s intervals
elapsed since the previous step, and the byte of the random source. -/
structure StepInput where
  keys : Vector Bool 16
  ticks : Nat
  rnd : Byte
  deriving DecidableEq, Repr

/-- Everything the spec gives the core (10_state.md), and the step's inputs and output, which the fixed form of `step`
leaves no other place for (DESIGN CHOICE, safe: logs 1, 2, 3). -/
structure State where
  /-- `V[0]` to `V[15]`; `VF` is `V[15]` (10_state.md R17). -/
  v : Vector Byte 16
  /-- `I`, not masked (10_state.md R25). -/
  i : Word
  /-- `PC`, the address of the opcode being executed (10_state.md R22). -/
  pc : Word
  /-- `S[0]` to `S[15]` (10_state.md R26). -/
  stack : Vector Word 16
  /-- `SP`, 0 to 15; 0 is empty (10_state.md R26). -/
  sp : Fin 16
  /-- `DT` (10_state.md R28). -/
  dt : Byte
  /-- `ST` (10_state.md R28). -/
  st : Byte
  /-- `M[0]` to `M[4095]` (10_state.md R29). -/
  mem : Memory
  /-- `D[0]` to `D[2047]` (10_state.md R30). -/
  display : Display
  /-- `DIRTY` (10_state.md R31). -/
  dirty : Bool
  /-- `K[0]` to `K[15]` (10_state.md R32). -/
  keys : Vector Bool 16
  /-- The model's own: the inputs the host supplies with the coming steps, oldest first (10_state.md R36, R39; log 1). -/
  inputs : List StepInput
  /-- The model's own: how many steps have completed; it numbers the free inputs of `Config` (log 2). -/
  stepCount : Nat
  /-- The `beep` result of the last completed step (10_state.md R40; log 3). -/
  beep : Bool
  deriving DecidableEq, Repr

/-- The errors of 60_exceptions.md R113. A step that raises one has no effect (R114), so the fault carries no state. -/
inductive Fault where
  /-- Raised by `step` for a fetched word that matches no row (30_encoding.md R64). The spec's own error: safe where the
  selector values are right (log 6). -/
  | invalidOpcode (opcode pc : Word)
  /-- Raised by fetch, `DXYN`, `FX33`, `FX55`, `FX65` for an address of 4096 or more (20_memory.md R43). The payload is
  the lowest such address; unsafe only in the payload (log 12). -/
  | memoryFault (address : Nat)
  /-- Raised by `2NNN` with `SP = 15` (41_control_flow.md R79). Unsafe only for claims that a program faults (log 10). -/
  | stackOverflow
  /-- Raised by `00EE` with `SP = 0` (41_control_flow.md R77). The spec's own error: safe. -/
  | stackUnderflow
  /-- Raised by the host operation `loadProgram` alone, never by `step` (20_memory.md R55). Safe. -/
  | programTooLarge
  /-- Raised by `FX29`, `EX9E`, `EXA1` with `V[x] > 15` (43_index_memory.md R103; 44_input_timers.md R107). The spec's
  decision where its source gives no behaviour: safe (logs 17, 18). -/
  | undefinedOperand (opcode pc : Word)
  deriving DecidableEq, Repr

/-- Why the model gives no meaning. -/
inductive Refusal where
  /-- Raised by an arm of `exec` whose instruction has no meaning yet; none is left. Safe. -/
  | notModelled (mnemonic : String)
  deriving DecidableEq, Repr

/-- `construct()` (70_reset_and_hazards.md R128): memory zeroed with the glyph set installed (nothing listed),
`PC = 0x200`; every other value is the spec's decision D14 (DESIGN CHOICE, unsafe: log 4), and the last three fields are
the model's own (logs 1, 2, 3). -/
def State.reset : State where
  v := Vector.replicate 16 0
  i := 0
  pc := 0x200
  stack := Vector.replicate 16 0
  sp := 0
  dt := 0
  st := 0
  mem := []
  display := Vector.replicate 32 0
  dirty := false
  keys := Vector.replicate 16 false
  inputs := []
  stepCount := 0
  beep := false

end Sys2Proof.Machine
end

