-- ==== Sys2Proof/Machine/Glyphs.lean ====
section
/-! DEFINITION. The built-in glyph set, and what an address that memory does not list reads as. -/

namespace Sys2Proof.Machine

/-- `GLYPH_TABLE` (20_memory.md R49): 16 glyphs of 5 bytes. The spec's default, which it takes from general knowledge:
PRESUMED, unsafe: log 5. -/
def glyphTable : List Byte :=
  [0xF0, 0x90, 0x90, 0x90, 0xF0] ++ [0x20, 0x60, 0x20, 0x20, 0x70] ++ [0xF0, 0x10, 0xF0, 0x80, 0xF0] ++
  [0xF0, 0x10, 0xF0, 0x10, 0xF0] ++ [0x90, 0x90, 0xF0, 0x10, 0x10] ++ [0xF0, 0x80, 0xF0, 0x10, 0xF0] ++
  [0xF0, 0x80, 0xF0, 0x90, 0xF0] ++ [0xF0, 0x10, 0x20, 0x40, 0x40] ++ [0xF0, 0x90, 0xF0, 0x90, 0xF0] ++
  [0xF0, 0x90, 0xF0, 0x10, 0xF0] ++ [0xF0, 0x90, 0xF0, 0x90, 0x90] ++ [0xE0, 0x90, 0xE0, 0x90, 0xE0] ++
  [0xF0, 0x80, 0x80, 0x80, 0xF0] ++ [0xE0, 0x90, 0x90, 0x90, 0xE0] ++ [0xF0, 0x80, 0xF0, 0x80, 0xF0] ++
  [0xF0, 0x80, 0xF0, 0x80, 0x80]

/-- The reset contents of memory (20_memory.md R48): the glyph set from address 0, zero above it. An address the memory
list does not name reads as this. -/
def unlisted (a : Nat) : Byte := (glyphTable[a]?).getD 0

end Sys2Proof.Machine
end

