-- ==== Sys2Proof/Machine/Ops.lean ====
section
/-! DEFINITION. The named operations over errors, memory, registers, PC, the stack, the step's inputs and the timers. -/

namespace Sys2Proof.Machine

/-! ### Errors (60_exceptions.md R113 to R116)

The core has no trap mechanism: no error transfers control, saves a register or changes a mode (R115). Taking an error
is this one operation: the step ends, nothing it wrote takes effect, and the host gets the error. -/

/-- `raise E(info)` (00_scope.md R13): the step ends with the error; a fault carries no state, so every write the step
made is gone (60_exceptions.md R114). -/
def raise (f : Fault) : Host.Outcome State Fault Refusal := .fault f

/-- Go on with the value of an operation that may raise an error. -/
def andThen {α : Type} (r : Except Fault α) (k : α → Host.Outcome State Fault Refusal) :
    Host.Outcome State Fault Refusal :=
  match r with
  | .ok a => k a
  | .error f => raise f

/-! ### Memory (20_memory.md) -/

/-- The byte at an address; the list is searched as far as its order allows. -/
def Memory.read : Memory → Nat → Byte
  | [], a => unlisted a
  | (k, c) :: r, a => if a < k then unlisted a else if a = k then c else Memory.read r a

/-- Store a byte, keeping the canonical form: writing what an unlisted address reads as removes the entry. -/
def Memory.write : Memory → Nat → Byte → Memory
  | [], a, b => if b = unlisted a then [] else [(a, b)]
  | (k, c) :: r, a, b =>
    if a < k then (if b = unlisted a then (k, c) :: r else (a, b) :: (k, c) :: r)
    else if a = k then (if b = unlisted a then r else (a, b) :: r)
    else (k, c) :: Memory.write r a b

/-- Every address of the list is at least `lo` and below 4096, the addresses rise strictly, and no entry equals what an
unlisted address reads as. -/
def Memory.wfFrom : Nat → Memory → Bool
  | _, [] => true
  | lo, (k, c) :: r => lo ≤ k && k < Config.memSize && c != unlisted k && Memory.wfFrom (k + 1) r

/-- The canonical form of a memory. -/
def Memory.wf (m : Memory) : Bool := Memory.wfFrom 0 m

/-- Store bytes at successive addresses. -/
def Memory.writeList (m : Memory) (a : Nat) : List Byte → Memory
  | [] => m
  | b :: bs => Memory.writeList (m.write a b) (a + 1) bs

/-- `MemRead(addr, 1)` (00_scope.md R12): the address is a natural that does not wrap (20_memory.md R44). -/
def memRead (s : State) (a : Nat) : Except Fault Byte :=
  if a < Config.memSize then .ok (s.mem.read a) else .error (.memoryFault a)

/-- `MemWrite(addr, 1, v)` (00_scope.md R12). -/
def memWrite (s : State) (a : Nat) (b : Byte) : Except Fault State :=
  if a < Config.memSize then .ok { s with mem := s.mem.write a b } else .error (.memoryFault a)

/-- Read `n` bytes from `a` upwards, one `MemRead` each: the error names the lowest out-of-range address (20_memory.md
R43; DESIGN CHOICE of the spec, D6: log 12). -/
def readBytes (s : State) (a : Nat) : Nat → Except Fault (List Byte)
  | 0 => .ok []
  | n + 1 =>
    match memRead s a with
    | .error f => .error f
    | .ok b =>
      match readBytes s (a + 1) n with
      | .error f => .error f
      | .ok bs => .ok (b :: bs)

/-- Write bytes from `a` upwards, one `MemWrite` each, on the working copy of the state (30_encoding.md R68). -/
def writeBytes (s : State) (a : Nat) : List Byte → Except Fault State
  | [] => .ok s
  | b :: bs =>
    match memWrite s a b with
    | .error f => .error f
    | .ok t => writeBytes t (a + 1) bs

/-- Fetch (30_encoding.md R57): two bytes at `PC`, high byte first, `PC + 1` without wrap, any alignment (D7: log 13). -/
def fetchOpcode (s : State) : Except Fault Word :=
  match memRead s s.pc.toNat with
  | .error f => .error f
  | .ok hi =>
    match memRead s (s.pc.toNat + 1) with
    | .error f => .error f
    | .ok lo => .ok (opcodeOf hi lo)

/-! The two reads raise `PC` when `PC >= 4096` and 4096 when `PC = 4095`: the `max(PC, 4096)` of R57. -/

/-! ### Registers (10_state.md R17 to R19) -/

/-- `V[x]`. -/
def State.reg (s : State) (x : Reg) : Byte := s.v[x]

/-- `V[x] <- b`. -/
def State.setReg (s : State) (x : Reg) (b : Byte) : State := { s with v := s.v.set x b }

/-- The number of the flag register `VF`. -/
abbrev vf : Reg := 15

/-- `I <- w`, all 16 bits (10_state.md R25). -/
def State.setI (s : State) (w : Word) : State := { s with i := w }

/-! ### PC (30_encoding.md R70) -/

/-- A sequential instruction: `PC <- PC + 2`. -/
def State.advance (s : State) : State := { s with pc := s.pc + 2 }

/-- A skip: `PC <- PC + 4` where the condition holds, else `PC + 2`. -/
def State.skipIf (s : State) (c : Bool) : State := { s with pc := s.pc + (if c then 4 else 2) }

/-- A jump, call or return: `PC <- target`. -/
def State.jumpTo (s : State) (target : Word) : State := { s with pc := target }

/-! ### The call stack (10_state.md R26) -/

/-- Push the address of the executing opcode: pre-increment, then `S[SP] <- PC` (41_control_flow.md R79; log 10). -/
def pushPc (s : State) : Except Fault State :=
  if h : s.sp.val + 1 < 16 then
    .ok { s with sp := ⟨s.sp.val + 1, h⟩, stack := s.stack.set (s.sp.val + 1) s.pc }
  else .error .stackOverflow

/-- Pop the most recent entry; its value stays in place (41_control_flow.md R77; 10_state.md R27: log 33). -/
def popEntry (s : State) : Except Fault (Word × State) :=
  if s.sp.val = 0 then .error .stackUnderflow
  else .ok (s.stack[s.sp], { s with sp := ⟨s.sp.val - 1, by omega⟩ })

/-! ### The step's inputs (10_state.md R36; 30_encoding.md R69) -/

/-- The inputs of the step about to run: the head of the host's list, else free values numbered by the step (DESIGN
CHOICE, safe: logs 1, 2). -/
def State.input (s : State) : StepInput :=
  match s.inputs with
  | inp :: _ => inp
  | [] => ⟨Config.freeKeys s.stepCount, Config.freeTicks s.stepCount, Config.freeRnd s.stepCount⟩

/-- Stage 1 of a step: the snapshot replaces all 16 key cells, before fetch (30_encoding.md R69; D22: log 25). -/
def State.latchKeys (s : State) : State := { s with keys := s.input.keys }

/-! ### The timer stage (60_exceptions.md R117, R118) -/

/-- A timer after `ticks` ticks: down to a floor of 0. -/
def countDown (t : Byte) (ticks : Nat) : Byte := if t.toNat > ticks then BitVec.ofNat 8 (t.toNat - ticks) else 0

/-- The beep edge: a tick takes `ST` from 1 to 0 (R118). -/
def beepEdge (st0 : Byte) (ticks : Nat) : Bool := 1 ≤ st0.toNat && st0.toNat ≤ ticks

/-- Stages 5 and 6 of a step: both timers count down by the step's `ticks`, after execute (D13: log 19); the result is
committed with its beep, and the step's inputs are used up. -/
def State.endStep (s : State) : State :=
  { s with
    dt := countDown s.dt s.input.ticks
    st := countDown s.st s.input.ticks
    beep := beepEdge s.st s.input.ticks
    inputs := s.inputs.tail
    stepCount := s.stepCount + 1 }

/-- End an executed instruction: the timer stage of a step that raised no error (60_exceptions.md R114: a step that
raises one applies no keys and no ticks and emits no beep; D5: log 11). -/
def endStepOf : Host.Outcome State Fault Refusal → Host.Outcome State Fault Refusal
  | .next s => .next s.endStep
  | .fault f => .fault f
  | .refused r => .refused r

end Sys2Proof.Machine
end

