-- ==== Sys2Proof/Machine/Flags.lean ====
section
/-! DEFINITION. Every flag computation: result and flag of each ALU operation that writes `VF`, and the order in which
the two are written (42_alu.md R86, R87, R94 to R98). Results and flags come from exact arithmetic on naturals. -/

namespace Sys2Proof.Machine

/-- The result and the flag of an ALU operation. -/
structure AluOut where
  result : Byte
  flag : Bool
  deriving DecidableEq, Repr

/-- Addition: the flag is the carry (42_alu.md R94). -/
def aluAdd (a b : Byte) : AluOut := ⟨BitVec.ofNat 8 (a.toNat + b.toNat), a.toNat + b.toNat > 255⟩

/-- `a - b` modulo 256: the flag is set when there is no borrow (42_alu.md R86, R95, R97; 90_conflicts.md C6: log 28). -/
def aluSub (a b : Byte) : AluOut := ⟨BitVec.ofNat 8 (a.toNat + 256 - b.toNat), a.toNat ≥ b.toNat⟩

/-- Logical shift right by one: the flag is the old bit 0 (42_alu.md R96). -/
def aluShr (a : Byte) : AluOut := ⟨BitVec.ofNat 8 (a.toNat / 2), a.toNat % 2 = 1⟩

/-- Shift left by one modulo 256: the flag is the old bit 7 (42_alu.md R98). -/
def aluShl (a : Byte) : AluOut := ⟨BitVec.ofNat 8 (a.toNat * 2), a.toNat / 128 % 2 = 1⟩

/-- `VF <- f`, then `V[x] <- r`: with `x = 15` the result stays (42_alu.md R87; the spec's decision D3, unsafe: log 9). -/
def State.writeAlu (s : State) (x : Reg) (o : AluOut) : State := (s.setReg vf (flagByte o.flag)).setReg x o.result

end Sys2Proof.Machine
end

