-- ==== Sys2Proof/Machine/Operands.lean ====
section
/-! DEFINITION. Operand forms: the addresses, indices and byte lists that instructions form from registers and fields. -/

namespace Sys2Proof.Machine

/-- An operand that must be 0 to 15, a glyph or a key number: outside that range the step raises `UndefinedOperand` with
the executing opcode and its address (43_index_memory.md R103; 44_input_timers.md R107; D11, D12, safe: logs 17, 18). The
opcode is the encoding of the executing instruction, which is the word fetched (DEDUCED, safe: log 29). -/
def nibbleOperand (i : Instr) (b : Byte) (s : State) : Except Fault (Fin 16) :=
  if h : b.toNat < 16 then .ok ⟨b.toNat, h⟩ else .error (.undefinedOperand (encode i) s.pc)

/-- The address of glyph `g` (43_index_memory.md R103; 20_memory.md R48). -/
def glyphAddress (g : Fin 16) : Word := BitVec.ofNat 16 (g.val * Config.glyphBytes)

/-- `K[k]`. -/
def State.key (s : State) (k : Fin 16) : Bool := s.keys[k]

/-- Where a memory instruction starts: `I` as a natural (20_memory.md R44). -/
def State.base (s : State) : Nat := s.i.toNat

/-- Hundreds, tens and ones of a byte (43_index_memory.md R104). -/
def bcdDigits (b : Byte) : List Byte :=
  [BitVec.ofNat 8 (b.toNat / 100), BitVec.ofNat 8 (b.toNat / 10 % 10), BitVec.ofNat 8 (b.toNat % 10)]

/-- The values of `V[0]` to `V[x]`, in order (43_index_memory.md R105). -/
def State.regsUpTo (s : State) (x : Reg) : List Byte := s.v.toList.take (x.val + 1)

/-- `V[k] <- bytes[k]` for each byte of the list; registers above keep their values (43_index_memory.md R106). -/
def State.loadRegs (s : State) (bytes : List Byte) : State :=
  { s with v := Vector.ofFn fun k : Fin 16 => (bytes[k.val]?).getD s.v[k] }

/-- The target of `BNNN`: not masked to 12 bits (41_control_flow.md R84; D8: log 14). -/
def offsetTarget (nnn : Imm12) (b : Byte) : Word := zextImm nnn + zext16 b

end Sys2Proof.Machine
end

