-- ==== Sys2Proof/Machine/Alu.lean ====
section
/-! DEFINITION. ALU and register instructions (42_alu.md): every one is sequential and raises no error. -/

namespace Sys2Proof.Machine

/-- `6XNN` LD_IMM (42_alu.md R88). -/
def execLdImm (x : Reg) (nn : Byte) (s : State) : Host.Outcome State Fault Refusal := .next (s.setReg x nn).advance

/-- `7XNN` ADD_IMM (42_alu.md R89): no flag. -/
def execAddImm (x : Reg) (nn : Byte) (s : State) : Host.Outcome State Fault Refusal :=
  .next (s.setReg x (s.reg x + nn)).advance

/-- `8XY0` LD_REG (42_alu.md R90). -/
def execLdReg (x y : Reg) (s : State) : Host.Outcome State Fault Refusal := .next (s.setReg x (s.reg y)).advance

/-- `8XY1` OR (42_alu.md R91): `VF` is not reset. -/
def execOrReg (x y : Reg) (s : State) : Host.Outcome State Fault Refusal :=
  .next (s.setReg x (s.reg x ||| s.reg y)).advance

/-- `8XY2` AND (42_alu.md R92). -/
def execAndReg (x y : Reg) (s : State) : Host.Outcome State Fault Refusal :=
  .next (s.setReg x (s.reg x &&& s.reg y)).advance

/-- `8XY3` XOR (42_alu.md R93). -/
def execXorReg (x y : Reg) (s : State) : Host.Outcome State Fault Refusal :=
  .next (s.setReg x (s.reg x ^^^ s.reg y)).advance

/-- `8XY4` ADD_REG (42_alu.md R94). -/
def execAddReg (x y : Reg) (s : State) : Host.Outcome State Fault Refusal :=
  .next (s.writeAlu x (aluAdd (s.reg x) (s.reg y))).advance

/-- `8XY5` SUB (42_alu.md R95). -/
def execSub (x y : Reg) (s : State) : Host.Outcome State Fault Refusal :=
  .next (s.writeAlu x (aluSub (s.reg x) (s.reg y))).advance

/-- `8XY6` SHR (42_alu.md R96): `y` is decoded and ignored. -/
def execShr (x _y : Reg) (s : State) : Host.Outcome State Fault Refusal := .next (s.writeAlu x (aluShr (s.reg x))).advance

/-- `8XY7` SUBN (42_alu.md R97). -/
def execSubn (x y : Reg) (s : State) : Host.Outcome State Fault Refusal :=
  .next (s.writeAlu x (aluSub (s.reg y) (s.reg x))).advance

/-- `8XYE` SHL (42_alu.md R98): `y` is decoded and ignored. -/
def execShl (x _y : Reg) (s : State) : Host.Outcome State Fault Refusal := .next (s.writeAlu x (aluShl (s.reg x))).advance

/-- `CXNN` RND (42_alu.md R99): the random byte is the step's input (D16, safe: log 21). -/
def execRnd (x : Reg) (nn : Byte) (s : State) : Host.Outcome State Fault Refusal :=
  .next (s.setReg x (s.input.rnd &&& nn)).advance

end Sys2Proof.Machine
end

