-- ==== Sys2Proof/Machine/Control.lean ====
section
/-! DEFINITION. Control transfer (41_control_flow.md). -/

namespace Sys2Proof.Machine

/-- `00EE` RET (41_control_flow.md R77). The sum is taken in 16 bits; an entry a call wrote is at most 4094 (log 35). -/
def execRet (s : State) : Host.Outcome State Fault Refusal :=
  andThen (popEntry s) fun (entry, t) => .next (t.jumpTo (entry + 2))

/-- `1NNN` JP (41_control_flow.md R78). -/
def execJp (nnn : Imm12) (s : State) : Host.Outcome State Fault Refusal := .next (s.jumpTo (zextImm nnn))

/-- `2NNN` CALL (41_control_flow.md R79). -/
def execCall (nnn : Imm12) (s : State) : Host.Outcome State Fault Refusal :=
  andThen (pushPc s) fun t => .next (t.jumpTo (zextImm nnn))

/-- `3XNN` SE_IMM (41_control_flow.md R80). -/
def execSeImm (x : Reg) (nn : Byte) (s : State) : Host.Outcome State Fault Refusal := .next (s.skipIf (s.reg x == nn))

/-- `4XNN` SNE_IMM (41_control_flow.md R81). -/
def execSneImm (x : Reg) (nn : Byte) (s : State) : Host.Outcome State Fault Refusal := .next (s.skipIf (s.reg x != nn))

/-- `5XY0` SE_REG (41_control_flow.md R82). -/
def execSeReg (x y : Reg) (s : State) : Host.Outcome State Fault Refusal := .next (s.skipIf (s.reg x == s.reg y))

/-- `9XY0` SNE_REG (41_control_flow.md R83). -/
def execSneReg (x y : Reg) (s : State) : Host.Outcome State Fault Refusal := .next (s.skipIf (s.reg x != s.reg y))

/-- `BNNN` JP_V0 (41_control_flow.md R84): always `V[0]`. -/
def execJpV0 (nnn : Imm12) (s : State) : Host.Outcome State Fault Refusal :=
  .next (s.jumpTo (offsetTarget nnn (s.reg 0)))

end Sys2Proof.Machine
end

