-- ==== Sys2Proof/Machine/Blit.lean ====
section
/-! DEFINITION. The display and the XOR sprite blitter (10_state.md R30; 40_display.md R74, R75). -/

namespace Sys2Proof.Machine

/-- `D[c]`; there are 2048 cells, and no other has a value of 1. -/
def cell (d : Display) (c : Nat) : Bool :=
  if h : c / Config.displayWidth < 32 then d[c / Config.displayWidth].getLsbD (c % Config.displayWidth) else false

/-- `D[c] <- D[c] ^ 1`. -/
def toggleCell (d : Display) (c : Nat) : Display :=
  if h : c / Config.displayWidth < 32 then
    d.set (c / Config.displayWidth) (d[c / Config.displayWidth] ^^^ BitVec.twoPow 64 (c % Config.displayWidth))
  else d

/-- Every cell 0. -/
def clearDisplay : Display := Vector.replicate 32 0

/-- The cell a pixel of a sprite falls on: each axis wraps on its own (40_display.md R75). -/
def cellIndex (x0 y0 : Byte) (col row : Nat) : Nat :=
  (x0.toNat + col) % Config.displayWidth + (y0.toNat + row) % Config.displayHeight * Config.displayWidth

/-- Pixel `col` of a sprite row: bit 7 is column 0 (40_display.md R74; the spec's general knowledge: PRESUMED, unsafe:
log 7). -/
def spritePixel (b : Byte) (col : Nat) : Bool := b.getLsbD (7 - col)

/-- The display and the collision flag while a sprite is drawn. -/
structure Canvas where
  cells : Display
  coll : Bool
  deriving DecidableEq, Repr

/-- A set pixel on cell `c`: a set cell collides, and the cell is toggled (40_display.md R75). -/
def Canvas.plot (d : Canvas) (c : Nat) : Canvas := ⟨toggleCell d.cells c, d.coll || cell d.cells c⟩

/-- One pixel of a row. -/
def Canvas.pixel (x0 y0 : Byte) (row : Nat) (b : Byte) (d : Canvas) (col : Nat) : Canvas :=
  if spritePixel b col then d.plot (cellIndex x0 y0 col row) else d

/-- The 8 columns of one row. -/
def Canvas.row (x0 y0 : Byte) (row : Nat) (b : Byte) (d : Canvas) : Canvas :=
  (List.range Config.spriteWidth).foldl (Canvas.pixel x0 y0 row b) d

/-- The rows of a sprite, the first on row number `row`. -/
def Canvas.rows (x0 y0 : Byte) (row : Nat) : List Byte → Canvas → Canvas
  | [], d => d
  | b :: bs, d => Canvas.rows x0 y0 (row + 1) bs (Canvas.row x0 y0 row b d)

/-- Draw a sprite at `(x0, y0)`: the collision flag is reset before the loop (40_display.md R75). -/
def blit (x0 y0 : Byte) (sprite : List Byte) (cells : Display) : Canvas :=
  Canvas.rows x0 y0 0 sprite ⟨cells, false⟩

end Sys2Proof.Machine
end

