-- ==== Sys2Proof/Machine/Display.lean ====
section
/-! DEFINITION. The display instructions (40_display.md). -/

namespace Sys2Proof.Machine

/-- `00E0` CLS (40_display.md R73). -/
def execCls (s : State) : Host.Outcome State Fault Refusal :=
  .next { s with display := clearDisplay, dirty := true }.advance

/-- `DXYN` DRW (40_display.md R75): the operands and the sprite are read before any write (D2: log 8). -/
def execDrw (x y : Reg) (n : Fin 16) (s : State) : Host.Outcome State Fault Refusal :=
  andThen (readBytes s s.base n.val) fun sprite =>
    let canvas := blit (s.reg x) (s.reg y) sprite s.display
    .next { s.setReg vf (flagByte canvas.coll) with display := canvas.cells, dirty := true }.advance

end Sys2Proof.Machine
end

