-- ==== Sys2Proof/Machine/IndexMemory.lean ====
section
/-! DEFINITION. Index register and memory instructions (43_index_memory.md): every one is sequential. -/

namespace Sys2Proof.Machine

/-- `ANNN` LD_I (43_index_memory.md R101). -/
def execLdI (nnn : Imm12) (s : State) : Host.Outcome State Fault Refusal := .next (s.setI (zextImm nnn)).advance

/-- `FX1E` ADD_I (43_index_memory.md R102): no flag, wraps above 0xFFFF only (D9: log 15). -/
def execAddI (x : Reg) (s : State) : Host.Outcome State Fault Refusal := .next (s.setI (s.i + zext16 (s.reg x))).advance

/-- `FX29` LD_F (43_index_memory.md R103). -/
def execLdF (x : Reg) (s : State) : Host.Outcome State Fault Refusal :=
  andThen (nibbleOperand (.ldF x) (s.reg x) s) fun g => .next (s.setI (glyphAddress g)).advance

/-- `FX33` LD_B (43_index_memory.md R104). -/
def execLdB (x : Reg) (s : State) : Host.Outcome State Fault Refusal :=
  andThen (writeBytes s s.base (bcdDigits (s.reg x))) fun t => .next t.advance

/-- `FX55` ST_REGS (43_index_memory.md R105): `I` is unchanged (D15: log 20). -/
def execStRegs (x : Reg) (s : State) : Host.Outcome State Fault Refusal :=
  andThen (writeBytes s s.base (s.regsUpTo x)) fun t => .next t.advance

/-- `FX65` LD_REGS (43_index_memory.md R106): `I` is unchanged (D15: log 20). -/
def execLdRegs (x : Reg) (s : State) : Host.Outcome State Fault Refusal :=
  andThen (readBytes s s.base (x.val + 1)) fun bytes => .next (s.loadRegs bytes).advance

end Sys2Proof.Machine
end

