-- ==== Sys2Proof/Machine/InputTimers.lean ====
section
/-! DEFINITION. Key input and timer instructions (44_input_timers.md). The key snapshot of the step is applied before
they run, its ticks after. -/

namespace Sys2Proof.Machine

/-- `EX9E` SKP (44_input_timers.md R108). -/
def execSkp (x : Reg) (s : State) : Host.Outcome State Fault Refusal :=
  andThen (nibbleOperand (.skp x) (s.reg x) s) fun k => .next (s.skipIf (s.key k))

/-- `EXA1` SKNP (44_input_timers.md R109). -/
def execSknp (x : Reg) (s : State) : Host.Outcome State Fault Refusal :=
  andThen (nibbleOperand (.sknp x) (s.reg x) s) fun k => .next (s.skipIf (!s.key k))

/-- `FX07` LD_VX_DT (44_input_timers.md R110). -/
def execLdVxDt (x : Reg) (s : State) : Host.Outcome State Fault Refusal := .next (s.setReg x s.dt).advance

/-- `FX15` LD_DT_VX (44_input_timers.md R111). -/
def execLdDtVx (x : Reg) (s : State) : Host.Outcome State Fault Refusal := .next { s with dt := s.reg x }.advance

/-- `FX18` LD_ST_VX (44_input_timers.md R112). -/
def execLdStVx (x : Reg) (s : State) : Host.Outcome State Fault Refusal := .next { s with st := s.reg x }.advance

end Sys2Proof.Machine
end

