-- ==== Sys2Proof/Machine/Cycle.lean ====
section
/-! DEFINITION. The stages of a step after its fetch (30_encoding.md R68): decode, execute, timers, commit. -/

namespace Sys2Proof.Machine

/-- Stages 3 to 6 on a fetched opcode. An invalid word raises `InvalidOpcode` with the word and its address
(30_encoding.md R64). -/
def runOpcode (w : Word) (s : State) : Host.Outcome State Fault Refusal :=
  match decode w with
  | .error _ => raise (.invalidOpcode w s.pc)
  | .ok i => endStepOf (exec i s)

/-- The address of the next fetch where one can be made, else the program's first address. -/
def fetchAddress (s : State) : Word := if s.pc.toNat + 1 < Config.memSize then s.pc else 0x200

end Sys2Proof.Machine
end

