-- ==== Sys2Proof/Machine/Step.lean ====
section
/-! DEFINITION. The step cycle (30_encoding.md R68): key snapshot, fetch, then the stages of Cycle. -/

namespace Sys2Proof.Machine

/-- One step: stage 1 is the key snapshot, stage 2 the fetch. The errors are checked in the order fetch, decode, execute
(60_exceptions.md R116; log 27). There is no halt latch (60_exceptions.md R115; log 24). -/
def step (s : State) : Host.Outcome State Fault Refusal :=
  andThen (fetchOpcode s.latchKeys) fun w => runOpcode w s.latchKeys

/-- The state with an instruction's word, numbered as the opcode table numbers it, stored high byte first where `step`
fetches next. `PC` changes only where no instruction can be fetched at it (log 31). -/
def State.withFetchWord (s : State) (nbits w : Nat) : State :=
  { s with pc := fetchAddress s, mem := s.mem.writeList (fetchAddress s).toNat (wordBytes (tableWord nbits w)) }

end Sys2Proof.Machine
end

