-- ==== Sys2Proof/Machine/HostPort.lean ====
section
/-! DEFINITION. The host operations beside the step (10_state.md R36 to R38; 20_memory.md R55; 70_reset_and_hazards.md
R129 to R131). -/

namespace Sys2Proof.Machine

/-- The host supplies the inputs of the next step. -/
def State.supply (s : State) (inp : StepInput) : State := { s with inputs := inp :: s.inputs }

/-- `step(keys, ticks, rnd)` as the host calls it (10_state.md R36); the beep result is the field `beep` of the next
state (log 3). -/
def hostStep (inp : StepInput) (s : State) : Host.Outcome State Fault Refusal := step (s.supply inp)

/-- `load_program(bytes)` (20_memory.md R55): it writes the image bytes and nothing else (D23: log 26). -/
def loadProgram (bytes : List Byte) (s : State) : Host.Outcome State Fault Refusal :=
  if imageFits bytes then .next { s with mem := s.mem.writeList Config.programBase bytes } else raise .programTooLarge

/-- `flush()` (10_state.md R38): whether the display changed since the last flush, and the state with the flag cleared. -/
def flush (s : State) : Bool × State := (s.dirty, { s with dirty := false })

/-- Reset of a running core is `construct()` again (70_reset_and_hazards.md R129; D31: log 32). The inputs still to come
and their numbering are the environment's, not the core's, so they go on. -/
def hostReset (s : State) : State := { State.reset with inputs := s.inputs, stepCount := s.stepCount }

/-! ### Accessors: pure reads of every component (10_state.md R37)

`V[x]` is `State.reg`, `K[k]` is `State.key`, and `PC`, `I`, `SP`, `DT`, `ST`, `DIRTY` are the fields themselves. -/

/-- `M[a]`; there is nothing to read outside the address space (log 36). -/
def readMemory (s : State) (a : Nat) : Option Byte := if a < Config.memSize then some (s.mem.read a) else none

/-- `S[k]`. -/
def readStack (s : State) (k : Fin 16) : Word := s.stack[k]

/-- `D[c]` of the cell at a column and a row, `c = column + 64 * row` (10_state.md R30). -/
def readCell (s : State) (column : Fin 64) (row : Fin 32) : Bool :=
  cell s.display (column.val + Config.displayWidth * row.val)

end Sys2Proof.Machine
end

