-- ==== Sys2Proof/Safety.lean ====
section
/-! DEFINITION. What the statements call a good state and a safe run, and the spec's tables over all instructions in the
form the statements use. -/

namespace Sys2Proof.Machine

/-- The invariant every step keeps, from any state that has it: memory is in its canonical form; `PC` is at most
0x10FE, the largest target there is (10_state.md R23); and every live stack entry is an address an instruction was
fetched from (41_control_flow.md R77, corner cases). -/
structure State.Inv (s : State) : Prop where
  memCanonical : s.mem.wf = true
  pcBound : s.pc.toNat ≤ 0x10FE
  liveEntries : ∀ k : Fin 16, 0 < k.val → k.val ≤ s.sp.val → s.stack[k].toNat ≤ 4094

/-- Two states that differ at most in what no program can observe of the stack: the entries above `SP`, and `S[0]`
(10_state.md R27, R34). -/
def SameButStaleStack (s t : State) : Prop :=
  t = { s with stack := t.stack } ∧ ∀ k : Fin 16, 0 < k.val → k.val ≤ s.sp.val → t.stack[k] = s.stack[k]

/-- Two outcomes agree: next states related by `r`, or the very same error. -/
def AgreeUpTo (r : State → State → Prop) :
    Host.Outcome State Fault Refusal → Host.Outcome State Fault Refusal → Prop
  | .next s, .next t => r s t
  | .fault f, .fault g => f = g
  | .refused p, .refused q => p = q
  | _, _ => False

end Sys2Proof.Machine

namespace Sys2Proof.Claims

open Sys2Proof.Machine

/-- The mask and the match of each instruction's row (30_encoding.md R62; spec/opcode_table.json). -/
def rowOf : Instr → Word × Word
  | .cls => (0xFFFF, 0x00E0)
  | .ret => (0xFFFF, 0x00EE)
  | .jp _ => (0xF000, 0x1000)
  | .call _ => (0xF000, 0x2000)
  | .seImm _ _ => (0xF000, 0x3000)
  | .sneImm _ _ => (0xF000, 0x4000)
  | .seReg _ _ => (0xF00F, 0x5000)
  | .ldImm _ _ => (0xF000, 0x6000)
  | .addImm _ _ => (0xF000, 0x7000)
  | .ldReg _ _ => (0xF00F, 0x8000)
  | .orReg _ _ => (0xF00F, 0x8001)
  | .andReg _ _ => (0xF00F, 0x8002)
  | .xorReg _ _ => (0xF00F, 0x8003)
  | .addReg _ _ => (0xF00F, 0x8004)
  | .sub _ _ => (0xF00F, 0x8005)
  | .shr _ _ => (0xF00F, 0x8006)
  | .subn _ _ => (0xF00F, 0x8007)
  | .shl _ _ => (0xF00F, 0x800E)
  | .sneReg _ _ => (0xF00F, 0x9000)
  | .ldI _ => (0xF000, 0xA000)
  | .jpV0 _ => (0xF000, 0xB000)
  | .rnd _ _ => (0xF000, 0xC000)
  | .drw _ _ _ => (0xF000, 0xD000)
  | .skp _ => (0xF0FF, 0xE09E)
  | .sknp _ => (0xF0FF, 0xE0A1)
  | .ldVxDt _ => (0xF0FF, 0xF007)
  | .ldDtVx _ => (0xF0FF, 0xF015)
  | .ldStVx _ => (0xF0FF, 0xF018)
  | .addI _ => (0xF0FF, 0xF01E)
  | .ldF _ => (0xF0FF, 0xF029)
  | .ldB _ => (0xF0FF, 0xF033)
  | .stRegs _ => (0xF0FF, 0xF055)
  | .ldRegs _ => (0xF0FF, 0xF065)

/-- The error of an access to `n` bytes from `a` upwards (20_memory.md R43). -/
def accessError (a n : Nat) : Option Fault :=
  if n ≠ 0 ∧ 4096 < a + n then some (.memoryFault (max a 4096)) else none

/-- The error of an instruction that needs `V[x]` to be 0 to 15 (60_exceptions.md R113). -/
def operandError (i : Instr) (s : State) (x : Reg) : Option Fault :=
  if 15 < s.v[x].toNat then some (.undefinedOperand (encode i) s.pc) else none

/-- The error each instruction raises at execute, and when (60_exceptions.md R113). -/
def errorOf (s : State) : Instr → Option Fault
  | .ret => if s.sp.val = 0 then some .stackUnderflow else none
  | .call _ => if s.sp.val = 15 then some .stackOverflow else none
  | .drw _ _ n => accessError s.i.toNat n.val
  | .ldB _ => accessError s.i.toNat 3
  | .stRegs x => accessError s.i.toNat (x.val + 1)
  | .ldRegs x => accessError s.i.toNat (x.val + 1)
  | .skp x => operandError (.skp x) s x
  | .sknp x => operandError (.sknp x) s x
  | .ldF x => operandError (.ldF x) s x
  | _ => none

/-- The next `PC` of each instruction, computed in naturals (30_encoding.md R70). -/
def nextPc (s : State) : Instr → Nat
  | .jp nnn => nnn.toNat
  | .call nnn => nnn.toNat
  | .jpV0 nnn => nnn.toNat + s.v[0].toNat
  | .ret => s.stack[s.sp].toNat + 2
  | .seImm x nn => s.pc.toNat + if s.v[x] = nn then 4 else 2
  | .sneImm x nn => s.pc.toNat + if s.v[x] = nn then 2 else 4
  | .seReg x y => s.pc.toNat + if s.v[x] = s.v[y] then 4 else 2
  | .sneReg x y => s.pc.toNat + if s.v[x] = s.v[y] then 2 else 4
  | .skp x => s.pc.toNat + if s.keys.toList[s.v[x].toNat]? = some true then 4 else 2
  | .sknp x => s.pc.toNat + if s.keys.toList[s.v[x].toNat]? = some true then 2 else 4
  | _ => s.pc.toNat + 2

/-- The general registers each instruction may write: its destination, `VF` where it reports a flag, `V[0]` to `V[x]` for
`FX65` (10_state.md R18, R19). -/
def writesReg (r : Reg) : Instr → Bool
  | .ldImm x _ | .addImm x _ | .rnd x _ | .ldVxDt x => r = x
  | .ldReg x _ | .orReg x _ | .andReg x _ | .xorReg x _ => r = x
  | .addReg x _ | .sub x _ | .shr x _ | .subn x _ | .shl x _ => r = x || r = 15
  | .drw _ _ _ => r = 15
  | .ldRegs x => r ≤ x
  | _ => false

/-- The instructions that write `I` (10_state.md R33). -/
def writesIndex : Instr → Bool
  | .ldI _ | .addI _ | .ldF _ => true
  | _ => false

/-- The instructions that write `SP` (10_state.md R33). -/
def writesSp : Instr → Bool
  | .call _ | .ret => true
  | _ => false

/-- The instruction that writes stack entries (10_state.md R33). -/
def writesStack : Instr → Bool
  | .call _ => true
  | _ => false

/-- The instruction that writes `DT` (10_state.md R28). -/
def writesDelay : Instr → Bool
  | .ldDtVx _ => true
  | _ => false

/-- The instruction that writes `ST` (10_state.md R28). -/
def writesSound : Instr → Bool
  | .ldStVx _ => true
  | _ => false

/-- The instructions that write the display and `DIRTY` (10_state.md R30, R31). -/
def writesDisplay : Instr → Bool
  | .cls | .drw _ _ _ => true
  | _ => false

/-- The addresses each instruction stores to (20_memory.md R42). -/
def storesTo (s : State) (a : Nat) : Instr → Bool
  | .ldB _ => s.i.toNat ≤ a && a ≤ s.i.toNat + 2
  | .stRegs x => s.i.toNat ≤ a && a ≤ s.i.toNat + x.val
  | _ => false

/-- One tick of a timer: a nonzero timer goes down by 1 (60_exceptions.md R117). -/
def tick (t : Byte) : Byte := if t = 0 then 0 else t - 1

/-- A set pixel of the sprite of `n` rows at `I`, drawn at (`V[x]`, `V[y]`), falls on the cell at a column and a row of
the display: row `r` of the sprite is the byte at `I + r`, its column `col` is bit `7 - col`, and each axis wraps on its
own (40_display.md R74, R75). -/
def Lit (s : State) (x y : Reg) (n : Fin 16) (column : Fin 64) (row : Fin 32) : Prop :=
  ∃ r col : Nat, r < n.val ∧ col < 8 ∧ (s.mem.read (s.i.toNat + r)).getLsbD (7 - col) = true ∧
    column.val = (s.v[x].toNat + col) % 64 ∧ row.val = (s.v[y].toNat + r) % 32

end Sys2Proof.Claims
end

