-- ==== Sys2Proof/Certificates/Slice0/Obligations.lean ====
section
/-! DEFINITION. The statements for the provers. A clause that rests on a decision the spec marks as its own
(92_eei_decisions.md), on general knowledge the spec marks so, or on a choice of this model names it in its docstring. -/

open Sys2Proof Sys2Proof.Machine

/-! ### Encoding -/

/-- 30_encoding.md sections 3 and 4: decoding the encoding of any instruction gives it back, with every operand, from a
word and from bytes with more bytes after them. The selector values are the spec's general knowledge (R62; log 6). -/
def Obligations.DecodeOfEncodeIsTheInstruction : Prop :=
  ∀ (i : Instr) (rest : List Byte), decode (encode i) = .ok i ∧ decodeBytes (encodeBytes i ++ rest) = .ok (i, rest)

/-- 30_encoding.md section 4: each valid word has one meaning, so encoding what was decoded gives the word back. The
selector values are the spec's general knowledge (R62; log 6). -/
def Obligations.EncodeOfDecodeIsTheWord : Prop :=
  ∀ (w : Word) (i : Instr), decode w = .ok i → encode i = w

/-- 30_encoding.md sections 4 and 5 (R62, R64, R67): the decoder accepts exactly the words that some row of the opcode
table matches, and rejects every other word by name. The selector values are general knowledge (log 6). -/
def Obligations.DecodeAcceptsExactlyTheTableRows : Prop :=
  ∀ w : Word, ((∃ i, decode w = .ok i) ↔ ∃ row ∈ opcodeRows, w &&& row.1 = row.2) ∧
    ((∀ row ∈ opcodeRows, w &&& row.1 ≠ row.2) → decode w = .error (.invalid w))

/-- 30_encoding.md section 5 (R67): no word has the pattern of two rows. The rows' selector values are the spec's general
knowledge (R62; log 6). -/
def Obligations.OpcodeRowsAreDisjoint : Prop :=
  opcodeRows.length = 33 ∧
    opcodeRows.Pairwise fun a b => ∀ w : Word, ¬ (w &&& a.1 = a.2 ∧ w &&& b.1 = b.2)

/-- One word for each of the 33 rows, written out from 30_encoding.md R62, decodes to the instruction it stands for, and
`0000`, `0123` (a machine code call), `5121`, `8008`, `912F`, `E09F`, `F00A` (a key wait) are invalid. Except for `124E`
and `2EEE`, the family and selector values are the spec's general knowledge (R62, R63; its decision D27; log 6). -/
def Obligations.SampleWordsDecode : Prop :=
  (decode 0x00E0 = .ok .cls ∧ decode 0x00EE = .ok .ret ∧ decode 0x124E = .ok (.jp 0x24E) ∧
    decode 0x2EEE = .ok (.call 0xEEE) ∧ decode 0x3014 = .ok (.seImm 0 0x14) ∧ decode 0x4AFE = .ok (.sneImm 10 0xFE) ∧
    decode 0x5120 = .ok (.seReg 1 2) ∧ decode 0x6F42 = .ok (.ldImm 15 0x42) ∧ decode 0x7C80 = .ok (.addImm 12 0x80)) ∧
  (decode 0x8FE0 = .ok (.ldReg 15 14) ∧ decode 0x8121 = .ok (.orReg 1 2) ∧ decode 0x8342 = .ok (.andReg 3 4) ∧
    decode 0x8563 = .ok (.xorReg 5 6) ∧ decode 0x8AB4 = .ok (.addReg 10 11) ∧ decode 0x89A5 = .ok (.sub 9 10) ∧
    decode 0x8BC6 = .ok (.shr 11 12) ∧ decode 0x8DE7 = .ok (.subn 13 14) ∧ decode 0x8FEE = .ok (.shl 15 14) ∧
    decode 0x9210 = .ok (.sneReg 2 1)) ∧
  (decode 0xA2F0 = .ok (.ldI 0x2F0) ∧ decode 0xBFFF = .ok (.jpV0 0xFFF) ∧ decode 0xC30F = .ok (.rnd 3 0x0F) ∧
    decode 0xD125 = .ok (.drw 1 2 5) ∧ decode 0xE19E = .ok (.skp 1) ∧ decode 0xE1A1 = .ok (.sknp 1)) ∧
  (decode 0xF507 = .ok (.ldVxDt 5) ∧ decode 0xF615 = .ok (.ldDtVx 6) ∧ decode 0xF218 = .ok (.ldStVx 2) ∧
    decode 0xF21E = .ok (.addI 2) ∧ decode 0xFA29 = .ok (.ldF 10) ∧ decode 0xF333 = .ok (.ldB 3) ∧
    decode 0xF455 = .ok (.stRegs 4) ∧ decode 0xFF65 = .ok (.ldRegs 15)) ∧
  decode 0x0000 = .error (.invalid 0x0000) ∧ decode 0x0123 = .error (.invalid 0x0123) ∧
  decode 0x5121 = .error (.invalid 0x5121) ∧ decode 0x8008 = .error (.invalid 0x8008) ∧
  decode 0x912F = .error (.invalid 0x912F) ∧ decode 0xE09F = .error (.invalid 0xE09F) ∧
  decode 0xF00A = .error (.invalid 0xF00A)

/-- 30_encoding.md sections 2 and 4 (R58, R62): the opcode of every instruction has the pattern of that instruction's own
row, and holds each operand in the bits of its field. The rows' family and selector values are the spec's general
knowledge (R62, R63; its decision D27; log 6). -/
def Obligations.OpcodeHasItsRowsPatternAndFields : Prop :=
  ∀ i : Instr, encode i &&& (Claims.rowOf i).1 = (Claims.rowOf i).2 ∧
    ∀ f ∈ i.fields, (encode i).toNat / 2 ^ f.lo % 2 ^ (f.hi + 1 - f.lo) = f.value

/-! ### The step -/

/-- 30_encoding.md section 6 (R68): when the two bytes at `PC` decode to an instruction, the step is that instruction on
the state with the step's key snapshot, followed by the timer stage. The places of the snapshot and of the timer stage are
the spec's decisions D22 and D13 (logs 25, 19). -/
def Obligations.StepRunsTheDecodedInstruction : Prop :=
  ∀ (s : State) (i : Instr), s.pc.toNat + 1 < 4096 →
    decode (opcodeOf (s.mem.read s.pc.toNat) (s.mem.read (s.pc.toNat + 1))) = .ok i →
    step s = endStepOf (exec i { s with keys := s.input.keys })

/-- 20_memory.md section 2 (R45, R57): the opcode is the byte at `PC` times 256 plus the byte after it, at any `PC`, odd
or even (no alignment check: the spec's decision D7). -/
def Obligations.FetchIsBigEndian : Prop :=
  ∀ s : State, s.pc.toNat + 1 < 4096 →
    ∃ w, fetchOpcode s = .ok w ∧ w.toNat = (s.mem.read s.pc.toNat).toNat * 256 + (s.mem.read (s.pc.toNat + 1)).toNat

/-- 30_encoding.md section 1 (R57): a fetch that reaches 4096 raises `MemoryFault`; the address it names is the spec's
decision D6 (log 12), and that `PC + 1` does not wrap its decision D10 (log 16). -/
def Obligations.FetchPastMemoryFaults : Prop :=
  ∀ s : State, 4096 ≤ s.pc.toNat + 1 → step s = .fault (.memoryFault (max s.pc.toNat 4096))

/-- 30_encoding.md section 5 (R64): a fetched word that no row of the table matches raises `InvalidOpcode` with the word
and its address. The rows' selector values are general knowledge (log 6). -/
def Obligations.InvalidWordRaisesInvalidOpcode : Prop :=
  ∀ (s : State) (w : Word), fetchOpcode s = .ok w → (∀ row ∈ opcodeRows, w &&& row.1 ≠ row.2) →
    step s = .fault (.invalidOpcode w s.pc)

/-- 60_exceptions.md section 1, table of errors (R113): every instruction on every state either raises exactly the error
the table gives it, exactly when the table says, or completes. The address of a `MemoryFault` is decision D6; the error
of an operand above 15 is decisions D11 and D12, and the overflow at `SP = 15` is decision D4 (logs 12, 17, 18, 10). -/
def Obligations.ExecCompletesOrRaisesTheTabledError : Prop :=
  ∀ (i : Instr) (s : State),
    (∀ f, Claims.errorOf s i = some f → exec i s = .fault f) ∧
    (Claims.errorOf s i = none → ∃ t, exec i s = .next t)

/-- 60_exceptions.md section 1 (R113): the opcode and the address an error carries are the word the step fetched and its
`PC`. `UndefinedOperand` is the spec's decisions D11 and D12, and that its opcode is the fetched word is DEDUCED (logs 17, 18,
29). -/
def Obligations.ErrorsNameTheFetchedWord : Prop :=
  ∀ (s : State) (w pc : Word),
    (step s = .fault (.invalidOpcode w pc) ∨ step s = .fault (.undefinedOperand w pc)) →
    fetchOpcode s = .ok w ∧ pc = s.pc

/-- 60_exceptions.md section 1 (R113): a step never raises `ProgramTooLarge`, and this model gives every instruction a
meaning. -/
def Obligations.StepNeverRefuses : Prop :=
  ∀ s : State, (∀ r, step s ≠ .refused r) ∧ step s ≠ .fault .programTooLarge

/-- 60_exceptions.md section 1 (R115, the spec's decision D21: no halt latch, log 24): whether a step raises an error, and
which, depends on no input of the step, so a step from the unchanged state raises the same error again, whatever the host
supplies. The list of inputs and the step count are the model's own fields (logs 1, 2). -/
def Obligations.StepErrorsDependOnNoInput : Prop :=
  ∀ (s : State) (f : Fault) (keys : Vector Bool 16) (inputs : List StepInput) (n : Nat),
    step s = .fault f → step { s with keys := keys, inputs := inputs, stepCount := n } = .fault f

/-- 60_exceptions.md section 2 (R117, R118; the spec's decision D13: log 19): after execute, both timers go down by the step's
ticks to a floor of 0, and the beep is given when the sound timer was 1 to `ticks`. The beep as a field, the list of inputs
that loses its head, and the count of steps that goes up by one are the model's own (DESIGN CHOICE: logs 3, 1, 2). No other
component changes. -/
def Obligations.TimerStageEndsTheStep : Prop :=
  ∀ (s t : State) (w : Word) (i : Instr), fetchOpcode s = .ok w → decode w = .ok i →
    exec i s.latchKeys = .next t →
    ∃ u, step s = .next u ∧ u.dt.toNat = t.dt.toNat - s.input.ticks ∧ u.st.toNat = t.st.toNat - s.input.ticks ∧
      (u.beep = true ↔ 1 ≤ t.st.toNat ∧ t.st.toNat ≤ s.input.ticks) ∧
      u = { t with dt := u.dt, st := u.st, beep := u.beep, inputs := s.inputs.tail, stepCount := s.stepCount + 1 }

/-- 60_exceptions.md section 2 (R117, R118): counting down by `n` ticks is `n` single ticks in a row, and there is a beep
exactly when one of them, and then only one, takes the sound timer from 1 to 0. -/
def Obligations.TicksAreSingleTicksInARow : Prop :=
  ∀ (t : Byte) (n : Nat), countDown t n = Claims.tick^[n] t ∧
    (beepEdge t n = true ↔ ∃! k, k < n ∧ Claims.tick^[k] t = 1 ∧ Claims.tick^[k + 1] t = 0)

/-- 10_state.md section 11 (R32, R36; the spec's decision D22: log 25): a completed step leaves the key state equal to the
snapshot it was given. That it uses up that input alone and counts itself is the model's own (DESIGN CHOICE: logs 1, 2). -/
def Obligations.HostStepLeavesItsSnapshot : Prop :=
  ∀ (inp : StepInput) (s t : State), hostStep inp s = .next t →
    t.keys = inp.keys ∧ t.inputs = s.inputs ∧ t.stepCount = s.stepCount + 1

/-- 30_encoding.md section 6 (R69, the spec's decision D22: log 25): `EX9E` and `EXA1` see the snapshot the host supplied with
their own step. The host supplies it through the model's list of inputs (log 1). -/
def Obligations.KeySkipsSeeTheirOwnSnapshot : Prop :=
  ∀ (inp : StepInput) (s : State) (w : Word) (x : Reg) (k : Fin 16), fetchOpcode s = .ok w → s.v[x].toNat = k.val →
    (decode w = .ok (.skp x) →
      ∃ t, hostStep inp s = .next t ∧ t.pc = s.pc + if inp.keys[k] = true then 4 else 2) ∧
    (decode w = .ok (.sknp x) →
      ∃ t, hostStep inp s = .next t ∧ t.pc = s.pc + if inp.keys[k] = true then 2 else 4)

/-- 44_input_timers.md (R110 to R112, corner cases; the spec's decision D13: log 19): in a step of `n` ticks, `FX07` reads the
delay timer as it stands before the ticks, and the ticks apply after `FX15` and `FX18` have set their timers. The inputs
come through the model's list, and the beep is the model's field (logs 1, 3). -/
def Obligations.TimerInstructionsMeetTheirStepsTicks : Prop :=
  ∀ (inp : StepInput) (s : State) (w : Word) (x : Reg), fetchOpcode s = .ok w →
    (decode w = .ok (.ldVxDt x) →
      ∃ t, hostStep inp s = .next t ∧ t.v[x] = s.dt ∧ t.dt.toNat = s.dt.toNat - inp.ticks) ∧
    (decode w = .ok (.ldDtVx x) →
      ∃ t, hostStep inp s = .next t ∧ t.dt.toNat = s.v[x].toNat - inp.ticks ∧ t.st.toNat = s.st.toNat - inp.ticks) ∧
    (decode w = .ok (.ldStVx x) →
      ∃ t, hostStep inp s = .next t ∧ t.st.toNat = s.v[x].toNat - inp.ticks ∧
        (t.beep = true ↔ 1 ≤ s.v[x].toNat ∧ s.v[x].toNat ≤ inp.ticks))

/-! ### Reset and the invariant -/

/-- 10_state.md R24: the reset value of `PC`. -/
def Obligations.ResetPcIsTheProgramBase : Prop := State.reset.pc = 0x200

/-- 20_memory.md section 3 (R48, R49): at reset each of the 16 glyphs stands at 5 times its number, and every byte above
them is 0. The glyph bytes are the spec's default from general knowledge (its decision D26; log 5). -/
def Obligations.ResetMemoryHoldsTheGlyphs : Prop :=
  ((List.range 16).map fun g => (List.range' (5 * g) 5).map State.reset.mem.read) =
    [[0xF0, 0x90, 0x90, 0x90, 0xF0], [0x20, 0x60, 0x20, 0x20, 0x70], [0xF0, 0x10, 0xF0, 0x80, 0xF0],
     [0xF0, 0x10, 0xF0, 0x10, 0xF0], [0x90, 0x90, 0xF0, 0x10, 0x10], [0xF0, 0x80, 0xF0, 0x10, 0xF0],
     [0xF0, 0x80, 0xF0, 0x90, 0xF0], [0xF0, 0x10, 0x20, 0x40, 0x40], [0xF0, 0x90, 0xF0, 0x90, 0xF0],
     [0xF0, 0x90, 0xF0, 0x10, 0xF0], [0xF0, 0x90, 0xF0, 0x90, 0x90], [0xE0, 0x90, 0xE0, 0x90, 0xE0],
     [0xF0, 0x80, 0x80, 0x80, 0xF0], [0xE0, 0x90, 0x90, 0x90, 0xE0], [0xF0, 0x80, 0xF0, 0x80, 0xF0],
     [0xF0, 0x80, 0xF0, 0x80, 0x80]] ∧
  ∀ a, 0x50 ≤ a → State.reset.mem.read a = 0

/-- 70_reset_and_hazards.md section 1, table: every other register, the display, `DIRTY` and the keys are 0 at reset. The
spec's own decision D14, this model's DESIGN CHOICE in log 4. -/
def Obligations.ResetRegistersAreZero : Prop :=
  (∀ x : Reg, State.reset.v[x] = 0) ∧ State.reset.i = 0 ∧ State.reset.sp.val = 0 ∧
  (∀ k : Fin 16, State.reset.stack[k] = 0) ∧ State.reset.dt = 0 ∧ State.reset.st = 0 ∧
  (∀ column row, readCell State.reset column row = false) ∧ State.reset.dirty = false ∧
  ∀ k : Fin 16, State.reset.keys[k] = false

/-- The reset state meets the invariant. -/
def Obligations.ResetMeetsTheInvariant : Prop := State.reset.Inv

/-- Every step keeps the invariant: canonical memory, `PC` at most 0x10FE (10_state.md R23), live stack entries at most
4094 (41_control_flow.md R77). The memory form is the model's own (log 30), which entries are live is the spec's decision
D4 (DEDUCED: log 10), and the bound on `PC` rests on the unmasked `BNNN` of decision D8 (log 14). -/
def Obligations.StepKeepsTheInvariant : Prop :=
  ∀ s t : State, s.Inv → step s = .next t → t.Inv

/-- 70_reset_and_hazards.md section 2 (R130): a step before any program is loaded raises `InvalidOpcode(0x0000, 0x200)`,
whatever the inputs, which come through the model's list (log 1). The spec derives it from R128 and R64 (log 31). -/
def Obligations.StepBeforeLoadIsInvalidOpcode : Prop :=
  ∀ inp : StepInput, hostStep inp State.reset = .fault (.invalidOpcode 0x0000 0x200)

/-! ### Memory -/

/-- 20_memory.md sections 2 and 4 (R47, R51): a read gives the byte last written to that address, and a write changes no
other address. -/
def Obligations.ReadGivesTheLastWrite : Prop :=
  ∀ (m : Memory) (a a' : Nat) (b : Byte), m.wf = true → (m.write a b).read a' = if a' = a then b else m.read a'

/-- The model's canonical form (20_memory.md section 1; log 30): a write inside the address space keeps it, and two
memories in that form that read alike everywhere are equal. -/
def Obligations.MemoryFormIsCanonical : Prop :=
  (∀ (m : Memory) (a : Nat) (b : Byte), m.wf = true → a < 4096 → (m.write a b).wf = true) ∧
  ∀ m n : Memory, m.wf = true → n.wf = true → (∀ a, m.read a = n.read a) → m = n

/-- 20_memory.md sections 2 and 4 (R45, R53; the spec's decision D18): bytes that `FX55` stores are fetched as an opcode
by any later step, the one at the lower address in the high half. -/
def Obligations.StoredRegistersAreFetchedAsCode : Prop :=
  ∀ (s t : State) (x k k' : Reg) (a : Word), s.mem.wf = true → exec (.stRegs x) s = .next t →
    k'.val = k.val + 1 → k' ≤ x → a.toNat = s.i.toNat + k.val →
    fetchOpcode { t with pc := a } = .ok (opcodeOf s.v[k] s.v[k'])

/-! ### Host operations -/

/-- 10_state.md R38. -/
def Obligations.FlushReturnsAndClearsDirty : Prop :=
  ∀ s : State, (flush s).1 = s.dirty ∧ (flush s).2 = { s with dirty := false }

/-- 20_memory.md section 5 (R55; "does not clear memory above" is the spec's decision D23): an image of at most 3584
bytes is copied to 0x200 verbatim, and nothing else changes; a larger one raises `ProgramTooLarge`. -/
def Obligations.LoadProgramCopiesTheImage : Prop :=
  ∀ (bytes : List Byte) (s : State), s.mem.wf = true →
    (4096 < bytes.length + 0x200 → loadProgram bytes s = .fault .programTooLarge) ∧
    (bytes.length + 0x200 ≤ 4096 → ∃ t, loadProgram bytes s = .next t ∧ t = { s with mem := t.mem } ∧ t.mem.wf = true ∧
      (∀ k : Fin bytes.length, t.mem.read (0x200 + k.val) = bytes[k]) ∧
      ∀ a, a < 0x200 ∨ 0x200 + bytes.length ≤ a → t.mem.read a = s.mem.read a)

/-! ### Display -/

/-- 40_display.md R73. -/
def Obligations.ClsClearsEveryCell : Prop :=
  ∀ s : State, ∃ t, exec .cls s = .next t ∧ (∀ column row, readCell t column row = false) ∧
    t = { s with display := t.display, dirty := true, pc := s.pc + 2 }

/-- 40_display.md section on DXYN (R74, R75): a cell is toggled exactly when a set pixel falls on it, `VF` is 1 exactly
when such a cell was set and 0 otherwise, and nothing else changes but `DIRTY` and `PC`. The bit order is general
knowledge (log 7); that operands are read before `VF` is written is the spec's decision D2 (log 8). -/
def Obligations.DrawTogglesTheLitCells : Prop :=
  ∀ (s : State) (x y : Reg) (n : Fin 16), n.val = 0 ∨ s.i.toNat + n.val ≤ 4096 →
    ∃ t, exec (.drw x y n) s = .next t ∧
      t = { s with v := s.v.set 15 t.v[15], display := t.display, dirty := true, pc := s.pc + 2 } ∧
      (∀ column row, readCell t column row = true ↔
        (readCell s column row = true ↔ ¬ Claims.Lit s x y n column row)) ∧
      (t.v[15] = 1 ∨ t.v[15] = 0) ∧
      (t.v[15] = 1 ↔ ∃ column row, Claims.Lit s x y n column row ∧ readCell s column row = true)

/-- 40_display.md section on double draw (R76): drawing the same sprite twice at the same place, with `x` and `y` not 15,
restores every cell, and the second draw collides exactly when the first set a cell that was clear. -/
def Obligations.DoubleDrawRestoresTheDisplay : Prop :=
  ∀ (s t u : State) (x y : Reg) (n : Fin 16), x ≠ 15 → y ≠ 15 →
    exec (.drw x y n) s = .next t → exec (.drw x y n) t = .next u →
    u.display = s.display ∧
      (u.v[15] = 1 ↔ ∃ column row, readCell s column row = false ∧ readCell t column row = true)

/-! ### Control transfer -/

/-- 41_control_flow.md on 00EE (R77): the next `PC` and `SP`, and the error. That the popped entry keeps its value is
DEDUCED from R27 (log 33), and that the sum is taken in 16 bits, which wraps in no reachable state, is DEDUCED (log 35). -/
def Obligations.RetPopsTheStack : Prop :=
  ∀ s : State,
    (s.sp.val = 0 → exec .ret s = .fault .stackUnderflow) ∧
    (0 < s.sp.val → ∃ t, exec .ret s = .next t ∧ t.sp.val + 1 = s.sp.val ∧
      t = { s with pc := s.stack[s.sp] + 2, sp := t.sp })

/-- 41_control_flow.md R78. -/
def Obligations.JpSetsPc : Prop :=
  ∀ (s : State) (nnn : Imm12), exec (.jp nnn) s = .next { s with pc := nnn.setWidth 16 }

/-- 41_control_flow.md on 2NNN (R79): the push and the jump. That a call with `SP = 15` overflows, and that pushes start
at `S[1]`, is the spec's decision D4 (90_conflicts.md C1; DEDUCED: log 10). -/
def Obligations.CallPushesItsOwnAddress : Prop :=
  ∀ (s : State) (nnn : Imm12),
    (s.sp.val = 15 → exec (.call nnn) s = .fault .stackOverflow) ∧
    (s.sp.val < 15 → ∃ t, exec (.call nnn) s = .next t ∧ t.sp.val = s.sp.val + 1 ∧ t.stack[t.sp] = s.pc ∧
      (∀ k : Fin 16, k ≠ t.sp → t.stack[k] = s.stack[k]) ∧
      t = { s with sp := t.sp, stack := t.stack, pc := nnn.setWidth 16 })

/-- 41_control_flow.md R80, R81, R82, R83. -/
def Obligations.SkipsOnEquality : Prop :=
  ∀ (s : State) (x y : Reg) (nn : Byte),
    exec (.seImm x nn) s = .next { s with pc := s.pc + if s.v[x] = nn then 4 else 2 } ∧
    exec (.sneImm x nn) s = .next { s with pc := s.pc + if s.v[x] = nn then 2 else 4 } ∧
    exec (.seReg x y) s = .next { s with pc := s.pc + if s.v[x] = s.v[y] then 4 else 2 } ∧
    exec (.sneReg x y) s = .next { s with pc := s.pc + if s.v[x] = s.v[y] then 2 else 4 }

/-- 41_control_flow.md on BNNN (R84): the target is the exact sum; that it is not masked to 12 bits is the spec's decision
D8 (log 14). -/
def Obligations.JumpOffsetIsNotMasked : Prop :=
  ∀ (s : State) (nnn : Imm12), ∃ t, exec (.jpV0 nnn) s = .next t ∧ t = { s with pc := t.pc } ∧
    t.pc.toNat = nnn.toNat + s.v[0].toNat

/-- 30_encoding.md section 6 (R70): the next `PC`, computed without wrap, for each class of instruction. That the target of
`BNNN` is not masked is the spec's decision D8 (DESIGN CHOICE: log 14), and that the sum of `00EE` is taken in 16 bits, which
does not wrap under the invariant, is DEDUCED (log 35). -/
def Obligations.NextPcIsByClass : Prop :=
  ∀ (i : Instr) (s t : State), s.Inv → s.pc.toNat ≤ 4094 → exec i s = .next t → t.pc.toNat = Claims.nextPc s i

/-! ### ALU and registers -/

/-- 42_alu.md R88, R89: load and add immediate; `VF` is written only as the destination. -/
def Obligations.ImmediateLoadAndAdd : Prop :=
  ∀ (s : State) (x : Reg) (nn : Byte),
    exec (.ldImm x nn) s = .next { s with v := s.v.set x nn, pc := s.pc + 2 } ∧
    ∃ r : Byte, r.toNat = (s.v[x].toNat + nn.toNat) % 256 ∧
      exec (.addImm x nn) s = .next { s with v := s.v.set x r, pc := s.pc + 2 }

/-- 42_alu.md R90 to R93: copy and the logical operations write their destination alone. -/
def Obligations.CopyAndLogicWriteTheDestination : Prop :=
  ∀ (s : State) (x y : Reg),
    exec (.ldReg x y) s = .next { s with v := s.v.set x s.v[y], pc := s.pc + 2 } ∧
    exec (.orReg x y) s = .next { s with v := s.v.set x (s.v[x] ||| s.v[y]), pc := s.pc + 2 } ∧
    exec (.andReg x y) s = .next { s with v := s.v.set x (s.v[x] &&& s.v[y]), pc := s.pc + 2 } ∧
    exec (.xorReg x y) s = .next { s with v := s.v.set x (s.v[x] ^^^ s.v[y]), pc := s.pc + 2 }

/-- 42_alu.md section 4 (R94): sum and carry. The operands are the values before any write, and the flag is written before
the result, so with `x = 15` the result stays: the spec's decisions D2 and D3 (logs 8, 9). -/
def Obligations.AddWritesCarryThenSum : Prop :=
  ∀ (s : State) (x y : Reg), ∃ f r : Byte,
    exec (.addReg x y) s = .next { s with v := (s.v.set 15 f).set x r, pc := s.pc + 2 } ∧
    f.toNat = (if 255 < s.v[x].toNat + s.v[y].toNat then 1 else 0) ∧
    r.toNat = (s.v[x].toNat + s.v[y].toNat) % 256

/-- 42_alu.md section 4 (R95, R97): differences and not-borrow flags, in the order of decision D3 (log 9). -/
def Obligations.SubtractionsWriteNotBorrowThenDifference : Prop :=
  ∀ (s : State) (x y : Reg),
    (∃ f r : Byte, exec (.sub x y) s = .next { s with v := (s.v.set 15 f).set x r, pc := s.pc + 2 } ∧
      f.toNat = (if s.v[y].toNat ≤ s.v[x].toNat then 1 else 0) ∧
      (r.toNat : Int) = ((s.v[x].toNat : Int) - s.v[y].toNat) % 256) ∧
    ∃ f r : Byte, exec (.subn x y) s = .next { s with v := (s.v.set 15 f).set x r, pc := s.pc + 2 } ∧
      f.toNat = (if s.v[x].toNat ≤ s.v[y].toNat then 1 else 0) ∧
      (r.toNat : Int) = ((s.v[y].toNat : Int) - s.v[x].toNat) % 256

/-- 42_alu.md section 4 (R96, R98): shifts of `V[x]` by one; `y` is ignored; the flag is the bit shifted out, in the order
of decision D3 (log 9). -/
def Obligations.ShiftsWriteTheLostBitThenResult : Prop :=
  ∀ (s : State) (x y : Reg),
    (∃ f r : Byte, exec (.shr x y) s = .next { s with v := (s.v.set 15 f).set x r, pc := s.pc + 2 } ∧
      f.toNat = s.v[x].toNat % 2 ∧ r.toNat = s.v[x].toNat / 2) ∧
    ∃ f r : Byte, exec (.shl x y) s = .next { s with v := (s.v.set 15 f).set x r, pc := s.pc + 2 } ∧
      f.toNat = s.v[x].toNat / 128 ∧ r.toNat = s.v[x].toNat * 2 % 256

/-- 42_alu.md section 5 (R99; the spec's decision D16: log 21): `V[x]` becomes the step's random byte masked by `nn`, and the
step's random byte is the one the host supplies with the step, through the model's list of inputs (log 1). -/
def Obligations.RndMasksTheSuppliedByte : Prop :=
  ∀ (s : State) (inp : StepInput) (x : Reg) (nn : Byte),
    (s.supply inp).input = inp ∧
    exec (.rnd x nn) s = .next { s with v := s.v.set x (s.input.rnd &&& nn), pc := s.pc + 2 }

/-- 42_alu.md section 5 (R99, the spec's decision D16: log 21): no other instruction depends on the random byte, which the
host supplies through the model's list of inputs (log 1). -/
def Obligations.OnlyRndDependsOnTheRandomByte : Prop :=
  ∀ (s : State) (keys : Vector Bool 16) (ticks : Nat) (r r' : Byte),
    (∀ w x nn, fetchOpcode s = .ok w → decode w ≠ .ok (.rnd x nn)) →
    hostStep ⟨keys, ticks, r⟩ s = hostStep ⟨keys, ticks, r'⟩ s

/-! ### Index register and memory instructions -/

/-- 43_index_memory.md R101. -/
def Obligations.LdISetsIndex : Prop :=
  ∀ (s : State) (nnn : Imm12), exec (.ldI nnn) s = .next { s with i := nnn.setWidth 16, pc := s.pc + 2 }

/-- 43_index_memory.md on FX1E (R102): no flag; the wrap above 0xFFFF is the spec's decision D9 (log 15). -/
def Obligations.AddIWrapsAtSixteenBits : Prop :=
  ∀ (s : State) (x : Reg), ∃ t, exec (.addI x) s = .next t ∧ t = { s with i := t.i, pc := s.pc + 2 } ∧
    t.i.toNat = (s.i.toNat + s.v[x].toNat) % 65536

/-- 43_index_memory.md on FX29 (R103): the address of a glyph; the error above 15 is the spec's decision D11 (log 17). -/
def Obligations.LdFPointsAtTheGlyph : Prop :=
  ∀ (s : State) (x : Reg),
    (s.v[x].toNat ≤ 15 → ∃ t, exec (.ldF x) s = .next t ∧ t = { s with i := t.i, pc := s.pc + 2 } ∧
      t.i.toNat = s.v[x].toNat * 5) ∧
    (15 < s.v[x].toNat → exec (.ldF x) s = .fault (.undefinedOperand (encode (.ldF x)) s.pc))

/-- 43_index_memory.md on FX33 (R104): the three digits; the address of the error is the spec's decision D6 (log 12). -/
def Obligations.LdBStoresTheDigits : Prop :=
  ∀ (s : State) (x : Reg), s.mem.wf = true →
    (s.i.toNat + 2 < 4096 → ∃ t, exec (.ldB x) s = .next t ∧ t = { s with mem := t.mem, pc := s.pc + 2 } ∧
      (t.mem.read s.i.toNat).toNat = s.v[x].toNat / 100 ∧
      (t.mem.read (s.i.toNat + 1)).toNat = s.v[x].toNat / 10 % 10 ∧
      (t.mem.read (s.i.toNat + 2)).toNat = s.v[x].toNat % 10 ∧
      ∀ a, a < s.i.toNat ∨ s.i.toNat + 2 < a → t.mem.read a = s.mem.read a) ∧
    (4096 ≤ s.i.toNat + 2 → exec (.ldB x) s = .fault (.memoryFault (max s.i.toNat 4096)))

/-- 43_index_memory.md on FX55 (R105): that `I` is unchanged is the spec's decision D15 (log 20), the address of the error
D6 (log 12). -/
def Obligations.StRegsStoresV0ToVx : Prop :=
  ∀ (s : State) (x : Reg), s.mem.wf = true →
    (s.i.toNat + x.val < 4096 → ∃ t, exec (.stRegs x) s = .next t ∧ t = { s with mem := t.mem, pc := s.pc + 2 } ∧
      (∀ k : Reg, k ≤ x → t.mem.read (s.i.toNat + k.val) = s.v[k]) ∧
      ∀ a, a < s.i.toNat ∨ s.i.toNat + x.val < a → t.mem.read a = s.mem.read a) ∧
    (4096 ≤ s.i.toNat + x.val → exec (.stRegs x) s = .fault (.memoryFault (max s.i.toNat 4096)))

/-- 43_index_memory.md on FX65 (R106): that `I` is unchanged is the spec's decision D15 (log 20), the address of the error
D6 (log 12). -/
def Obligations.LdRegsLoadsV0ToVx : Prop :=
  ∀ (s : State) (x : Reg),
    (s.i.toNat + x.val < 4096 → ∃ t, exec (.ldRegs x) s = .next t ∧ t = { s with v := t.v, pc := s.pc + 2 } ∧
      (∀ k : Reg, k ≤ x → t.v[k] = s.mem.read (s.i.toNat + k.val)) ∧
      ∀ k : Reg, x < k → t.v[k] = s.v[k]) ∧
    (4096 ≤ s.i.toNat + x.val → exec (.ldRegs x) s = .fault (.memoryFault (max s.i.toNat 4096)))

/-! ### Keys and timers -/

/-- 44_input_timers.md on EX9E and EXA1 (R108, R109): the skip on a key; the error above 15 is the spec's decision D12
(log 18). -/
def Obligations.KeySkips : Prop :=
  ∀ (s : State) (x : Reg),
    (∀ k : Fin 16, s.v[x].toNat = k.val →
      exec (.skp x) s = .next { s with pc := s.pc + if s.keys[k] = true then 4 else 2 } ∧
      exec (.sknp x) s = .next { s with pc := s.pc + if s.keys[k] = true then 2 else 4 }) ∧
    (15 < s.v[x].toNat →
      exec (.skp x) s = .fault (.undefinedOperand (encode (.skp x)) s.pc) ∧
      exec (.sknp x) s = .fault (.undefinedOperand (encode (.sknp x)) s.pc))

/-- 44_input_timers.md R110 to R112: the timer moves, before the ticks of their step. -/
def Obligations.TimerMoves : Prop :=
  ∀ (s : State) (x : Reg),
    exec (.ldVxDt x) s = .next { s with v := s.v.set x s.dt, pc := s.pc + 2 } ∧
    exec (.ldDtVx x) s = .next { s with dt := s.v[x], pc := s.pc + 2 } ∧
    exec (.ldStVx x) s = .next { s with st := s.v[x], pc := s.pc + 2 }

/-! ### Whole-machine rules and frames -/

/-- 10_state.md sections 1 and 9 (R18, R19): no instruction changes a general register but its destination, `VF` where it
reports a flag, and `V[0]` to `V[x]` for `FX65`. -/
def Obligations.RegistersKeepUnlessNamed : Prop :=
  ∀ (i : Instr) (s t : State) (r : Reg), exec i s = .next t → Claims.writesReg r i = false → t.v[r] = s.v[r]

/-- 10_state.md section 9, table (R33), and R28, R30, R31, R32: each special register, the stack, the timers, the display and
`DIRTY` change only by the instructions named for them, and the keys, the inputs and the beep by none. That `FX55` and `FX65`
keep `I` is the spec's decision D15 (log 20), that `00EE` keeps the stack is DEDUCED (R27; log 33), and the inputs, the step
count and the beep are the model's own fields (logs 1, 2, 3). -/
def Obligations.SpecialStateKeepsUnlessNamed : Prop :=
  ∀ (i : Instr) (s t : State), exec i s = .next t →
    (Claims.writesIndex i = false → t.i = s.i) ∧ (Claims.writesSp i = false → t.sp = s.sp) ∧
    (Claims.writesStack i = false → t.stack = s.stack) ∧ (Claims.writesDelay i = false → t.dt = s.dt) ∧
    (Claims.writesSound i = false → t.st = s.st) ∧
    (Claims.writesDisplay i = false → t.display = s.display ∧ t.dirty = s.dirty) ∧
    t.keys = s.keys ∧ t.inputs = s.inputs ∧ t.stepCount = s.stepCount ∧ t.beep = s.beep

/-- 20_memory.md section 1, table of accesses (R42): no instruction changes a byte but `FX33` its three bytes and `FX55`
its `x + 1` bytes, at the addresses from `I`. -/
def Obligations.MemoryKeepsUnlessStoredTo : Prop :=
  ∀ (i : Instr) (s t : State) (a : Nat), s.mem.wf = true → exec i s = .next t → Claims.storesTo s a i = false →
    t.mem.read a = s.mem.read a

/-- 10_state.md section 4 (R26, derived there): `S[0]` is never written. It follows from the spec's decision D4 that a call
increments `SP` before it stores and overflows at 15 (90_conflicts.md C1; DEDUCED: log 10). -/
def Obligations.StackEntryZeroIsNeverWritten : Prop :=
  ∀ s t : State, step s = .next t → t.stack[0] = s.stack[0]

/-- 10_state.md sections 4 and 10 (R27, R34): stack entries above `SP`, and `S[0]`, are never observable: two states that
differ only there step to states that differ only there, or raise the same error. Which entries are live is the spec's decision D4
(DEDUCED: log 10), and that a pop leaves its entry in place is DEDUCED (R27; log 33). -/
def Obligations.StaleStackEntriesAreUnobservable : Prop :=
  ∀ s t : State, SameButStaleStack s t → AgreeUpTo SameButStaleStack (step s) (step t)

/-- 10_state.md sections 5 and 7 (R28, R31): no program reads `DIRTY` or the sound timer, nor the beep, which is the model's
field (log 3): two states that differ only there step to states that differ only there, or raise the same error. -/
def Obligations.DirtySoundAndBeepAreUnreadable : Prop :=
  ∀ (s : State) (dirty beep : Bool) (st : Byte),
    AgreeUpTo (fun t u => u = { t with dirty := u.dirty, st := u.st, beep := u.beep })
      (step s) (step { s with dirty := dirty, st := st, beep := beep })
end

