-- ==== Sys2Proof/Laws/Blit.lean ====
section
/-! SUPPORT. What drawing a sprite does to each cell, said once (40_display.md R75). -/

namespace Sys2Proof.Machine

/-- A cleared display has no set cell. -/
@[simp] theorem cell_clearDisplay (c : Nat) : cell clearDisplay c = false := by
  simp [cell, clearDisplay]

/-- Toggling a cell changes that cell alone. -/
theorem cell_toggleCell (d : Display) {c : Nat} (hc : c < 2048) (c' : Nat) :
    cell (toggleCell d c) c' = (cell d c' ^^ decide (c' = c)) := by
  have hrow : c / 64 < 32 := by omega
  simp only [cell, toggleCell, Config.displayWidth, hrow, dif_pos]
  split
  · rename_i h
    rw [Vector.getElem_set]
    split
    · rename_i hr
      rw [BitVec.getLsbD_xor, BitVec.getLsbD_twoPow]
      have : (decide (c % 64 < 64) && decide (c % 64 = c' % 64)) = decide (c' = c) := by
        by_cases he : c' = c
        · simp [he, Nat.mod_lt]
        · have : c % 64 ≠ c' % 64 := by omega
          simp [he, this]
      simp only [hr, this]
    · rename_i hr
      have : c' ≠ c := by rintro rfl; exact hr rfl
      simp [this]
  · rename_i h
    have : c' ≠ c := by omega
    simp [this]

/-- Every pixel falls on the display. -/
theorem cellIndex_lt (x0 y0 : Byte) (col row : Nat) : cellIndex x0 y0 col row < 2048 := by
  simp only [cellIndex, Config.displayWidth, Config.displayHeight]
  omega

/-- The 8 columns of a row fall on different cells (40_display.md R75, corner cases). -/
theorem cellIndex_inj_col {x0 y0 : Byte} {col col' row : Nat} (h : col < 8) (h' : col' < 8)
    (he : cellIndex x0 y0 col row = cellIndex x0 y0 col' row) : col = col' := by
  simp only [cellIndex, Config.displayWidth, Config.displayHeight] at he
  omega

/-- Rows fewer than 32 apart fall on different rows of the display (40_display.md R75, corner cases). -/
theorem cellIndex_inj_row {x0 y0 : Byte} {col col' row row' : Nat} (h : row < row' + 32) (h' : row' < row + 32)
    (he : cellIndex x0 y0 col row = cellIndex x0 y0 col' row') : row = row' := by
  simp only [cellIndex, Config.displayWidth, Config.displayHeight] at he
  omega

/-- A pixel of a sprite whose first row is row number `row` falls on cell `c`. -/
def Hits (x0 y0 : Byte) (row : Nat) (sprite : List Byte) (c : Nat) : Prop :=
  ∃ r col, ∃ h : r < sprite.length, col < 8 ∧ spritePixel sprite[r] col = true ∧ cellIndex x0 y0 col (row + r) = c

/-- Columns `0` to `n - 1` of one row: each hit cell is toggled once, and the flag says whether one of them was set. -/
theorem row_prefix (x0 y0 : Byte) (row : Nat) (b : Byte) (d : Canvas) (n : Nat) (hn : n ≤ 8) :
    let e := (List.range n).foldl (Canvas.pixel x0 y0 row b) d
    (∀ c, (cell e.cells c = true ↔
      (cell d.cells c = true ↔ ¬ ∃ col, col < n ∧ spritePixel b col = true ∧ cellIndex x0 y0 col row = c))) ∧
    (e.coll = true ↔ d.coll = true ∨
      ∃ col, col < n ∧ spritePixel b col = true ∧ cell d.cells (cellIndex x0 y0 col row) = true) := by
  induction n with
  | zero => simp
  | succ n ih =>
    obtain ⟨hcell, hcoll⟩ := ih (by omega)
    simp only [List.range_succ, List.foldl_append, List.foldl_cons, List.foldl_nil]
    set e := (List.range n).foldl (Canvas.pixel x0 y0 row b) d
    have hmiss : ∀ col, col < n → spritePixel b col = true → cellIndex x0 y0 col row ≠ cellIndex x0 y0 n row :=
      fun col h _ he => absurd (cellIndex_inj_col (by omega) (by omega) he) (by omega)
    have hold : cell e.cells (cellIndex x0 y0 n row) = cell d.cells (cellIndex x0 y0 n row) := by
      rw [Bool.eq_iff_iff, hcell]
      simp only [iff_def]
      constructor
      · intro h
        exact h.2 fun ⟨col, h1, h2, h3⟩ => hmiss col h1 h2 h3
      · exact fun h => ⟨fun _ ⟨col, h1, h2, h3⟩ => hmiss col h1 h2 h3, fun _ => h⟩
    by_cases hp : spritePixel b n = true
    · rw [Canvas.pixel, if_pos hp]
      simp only [Canvas.plot]
      refine ⟨fun c => ?_, ?_⟩
      · rw [cell_toggleCell _ (cellIndex_lt ..)]
        by_cases hc : c = cellIndex x0 y0 n row
        · subst hc
          rw [hold]
          have hyes : ∃ col, col < n + 1 ∧ spritePixel b col = true ∧
            cellIndex x0 y0 col row = cellIndex x0 y0 n row := ⟨n, by omega, hp, rfl⟩
          simp only [hyes, decide_true, Bool.xor_true, not_true_eq_false, iff_false, Bool.not_eq_true', Bool.not_eq_true]
        · have : (∃ col, col < n + 1 ∧ spritePixel b col = true ∧ cellIndex x0 y0 col row = c) ↔
              ∃ col, col < n ∧ spritePixel b col = true ∧ cellIndex x0 y0 col row = c := by
            constructor
            · rintro ⟨col, h1, h2, h3⟩
              have : col ≠ n := by rintro rfl; exact hc h3.symm
              exact ⟨col, by omega, h2, h3⟩
            · rintro ⟨col, h1, h2, h3⟩
              exact ⟨col, by omega, h2, h3⟩
          simp only [hc, decide_false, Bool.xor_false, this]
          exact hcell c
      · rw [Bool.or_eq_true, hcoll, hold, or_assoc]
        refine or_congr_right ⟨?_, ?_⟩
        · rintro (⟨col, h1, h2, h3⟩ | h)
          · exact ⟨col, by omega, h2, h3⟩
          · exact ⟨n, by omega, hp, h⟩
        · rintro ⟨col, h1, h2, h3⟩
          by_cases hcn : col = n
          · subst hcn
            exact Or.inr h3
          · exact Or.inl ⟨col, by omega, h2, h3⟩
    · rw [Canvas.pixel, if_neg hp]
      have hstep : ∀ P : Nat → Prop, (∃ col, col < n + 1 ∧ spritePixel b col = true ∧ P col) ↔
          ∃ col, col < n ∧ spritePixel b col = true ∧ P col := by
        intro P
        constructor
        · rintro ⟨col, h1, h2, h3⟩
          have : col ≠ n := by rintro rfl; exact hp h2
          exact ⟨col, by omega, h2, h3⟩
        · rintro ⟨col, h1, h2, h3⟩
          exact ⟨col, by omega, h2, h3⟩
      simp only [hstep]
      exact ⟨hcell, hcoll⟩

/-- A pixel of one row falls on cell `c`. -/
def RowHits (x0 y0 : Byte) (row : Nat) (b : Byte) (c : Nat) : Prop :=
  ∃ col, col < 8 ∧ spritePixel b col = true ∧ cellIndex x0 y0 col row = c

theorem hits_nil (x0 y0 : Byte) (row c : Nat) : ¬ Hits x0 y0 row [] c := by
  rintro ⟨r, col, hr, -⟩
  simp at hr

/-- The first row, or one of the rows after it. -/
theorem hits_cons (x0 y0 : Byte) (row : Nat) (b : Byte) (bs : List Byte) (c : Nat) :
    Hits x0 y0 row (b :: bs) c ↔ RowHits x0 y0 row b c ∨ Hits x0 y0 (row + 1) bs c := by
  have hshift : ∀ r, row + (r + 1) = row + 1 + r := fun r => by omega
  constructor
  · rintro ⟨r, col, hr, h1, h2, h3⟩
    cases r with
    | zero => exact Or.inl ⟨col, h1, h2, h3⟩
    | succ r => exact Or.inr ⟨r, col, by simpa using hr, h1, h2, hshift r ▸ h3⟩
  · rintro (⟨col, h1, h2, h3⟩ | ⟨r, col, hr, h1, h2, h3⟩)
    · exact ⟨0, col, by simp, h1, h2, h3⟩
    · exact ⟨r + 1, col, by simpa using hr, h1, h2, (hshift r).symm ▸ h3⟩

/-- Two different rows of a sprite of at most 32 rows hit no cell in common. -/
theorem rowHits_disjoint {x0 y0 : Byte} {row : Nat} {b : Byte} {bs : List Byte} {c : Nat} (hlen : bs.length < 32)
    (h : RowHits x0 y0 row b c) : ¬ Hits x0 y0 (row + 1) bs c := by
  obtain ⟨col, -, -, rfl⟩ := h
  rintro ⟨r, col', hr, -, -, he⟩
  have := cellIndex_inj_row (by omega) (by omega) he
  omega

/-- One whole row. -/
theorem row_spec (x0 y0 : Byte) (row : Nat) (b : Byte) (d : Canvas) :
    (∀ c, (cell (Canvas.row x0 y0 row b d).cells c = true ↔ (cell d.cells c = true ↔ ¬ RowHits x0 y0 row b c))) ∧
    ((Canvas.row x0 y0 row b d).coll = true ↔
      d.coll = true ∨ ∃ c, RowHits x0 y0 row b c ∧ cell d.cells c = true) := by
  obtain ⟨hcell, hcoll⟩ := row_prefix x0 y0 row b d 8 le_rfl
  refine ⟨hcell, hcoll.trans (or_congr_right ⟨?_, ?_⟩)⟩
  · rintro ⟨col, h1, h2, h3⟩
    exact ⟨_, ⟨col, h1, h2, rfl⟩, h3⟩
  · rintro ⟨_, ⟨col, h1, h2, rfl⟩, h3⟩
    exact ⟨col, h1, h2, h3⟩

/-- The rows of a sprite of at most 32 rows. -/
theorem rows_spec (x0 y0 : Byte) (sprite : List Byte) : ∀ (row : Nat) (d : Canvas), sprite.length ≤ 32 →
    (∀ c, (cell (Canvas.rows x0 y0 row sprite d).cells c = true ↔
      (cell d.cells c = true ↔ ¬ Hits x0 y0 row sprite c))) ∧
    ((Canvas.rows x0 y0 row sprite d).coll = true ↔
      d.coll = true ∨ ∃ c, Hits x0 y0 row sprite c ∧ cell d.cells c = true) := by
  induction sprite with
  | nil =>
    intro row d _
    simp [Canvas.rows, hits_nil]
  | cons b bs ih =>
    intro row d hlen
    have hlen : bs.length < 32 := by simpa using hlen
    obtain ⟨hcell, hcoll⟩ := row_spec x0 y0 row b d
    obtain ⟨ihcell, ihcoll⟩ := ih (row + 1) (Canvas.row x0 y0 row b d) (by omega)
    have hrest : ∀ c, ¬ RowHits x0 y0 row b c →
        (cell (Canvas.row x0 y0 row b d).cells c = true ↔ cell d.cells c = true) := fun c h => by
      rw [hcell c, iff_true_intro h, iff_true]
    refine ⟨fun c => ?_, ?_⟩
    · rw [Canvas.rows, ihcell c, hits_cons]
      by_cases hf : RowHits x0 y0 row b c
      · rw [hcell c]
        simp only [hf, rowHits_disjoint hlen hf, true_or, not_true_eq_false, not_false_eq_true, iff_true]
      · rw [hrest c hf]
        simp only [hf, false_or]
    · rw [Canvas.rows, ihcoll, hcoll, or_assoc]
      refine or_congr_right ⟨?_, ?_⟩
      · rintro (⟨c, h, hd⟩ | ⟨c, h, hd⟩)
        · exact ⟨c, (hits_cons ..).2 (Or.inl h), hd⟩
        · have hnf : ¬ RowHits x0 y0 row b c := fun hf => rowHits_disjoint hlen hf h
          exact ⟨c, (hits_cons ..).2 (Or.inr h), (hrest c hnf).1 hd⟩
      · rintro ⟨c, h, hd⟩
        by_cases hf : RowHits x0 y0 row b c
        · exact Or.inl ⟨c, hf, hd⟩
        · exact Or.inr ⟨c, ((hits_cons ..).1 h).resolve_left hf, (hrest c hf).2 hd⟩

/-- A drawn sprite toggles exactly the cells its set pixels fall on, and collides exactly when one of them was set. -/
theorem blit_spec (x0 y0 : Byte) (sprite : List Byte) (d : Display) (h : sprite.length ≤ 32) :
    (∀ c, (cell (blit x0 y0 sprite d).cells c = true ↔ (cell d c = true ↔ ¬ Hits x0 y0 0 sprite c))) ∧
    ((blit x0 y0 sprite d).coll = true ↔ ∃ c, Hits x0 y0 0 sprite c ∧ cell d c = true) := by
  have := rows_spec x0 y0 sprite 0 ⟨d, false⟩ h
  simpa [blit] using this

/-- Displays with the same cells are equal. -/
theorem display_ext {d e : Display} (h : ∀ c, c < 2048 → cell d c = cell e c) : d = e := by
  refine Vector.ext fun row hrow => ?_
  refine BitVec.eq_of_getLsbD_eq fun col hcol => ?_
  have := h (col + 64 * row) (by omega)
  have h1 : (col + 64 * row) / 64 = row := by omega
  have h2 : (col + 64 * row) % 64 = col := by omega
  simpa [cell, Config.displayWidth, h1, h2, hrow] using this

end Sys2Proof.Machine
end

