-- ==== Sys2Proof/Laws/Decode.lean ====
section
/-! SUPPORT. Words and their fields as naturals, the fields of a word in each format, and an opcode from its own
bytes. -/

namespace Sys2Proof

/-! ### Fields and words as naturals -/

theorem toNat_fieldF (w : Word) : (fieldF w).toNat = w.toNat / 4096 % 16 := by
  simp [fieldF, Nat.shiftRight_eq_div_pow]

theorem val_fieldX (w : Word) : (fieldX w).val = w.toNat / 256 % 16 := by
  simp [fieldX, Nat.shiftRight_eq_div_pow]

theorem val_fieldY (w : Word) : (fieldY w).val = w.toNat / 16 % 16 := by
  simp [fieldY, Nat.shiftRight_eq_div_pow]

theorem val_fieldN (w : Word) : (fieldN w).val = w.toNat % 16 := by
  simp [fieldN]

theorem toNat_fieldNN (w : Word) : (fieldNN w).toNat = w.toNat % 256 := by
  simp [fieldNN]

theorem toNat_fieldNNN (w : Word) : (fieldNNN w).toNat = w.toNat % 4096 := by
  simp [fieldNNN]

/-- Concatenation puts its left part in the higher bits (00_scope.md R10). -/
theorem toNat_concat {m n : Nat} (a : BitVec m) (b : BitVec n) : (a ++ b).toNat = a.toNat * 2 ^ n + b.toNat := by
  rw [BitVec.toNat_append, ← Nat.shiftLeft_add_eq_or_of_lt b.isLt, Nat.shiftLeft_eq]

theorem toNat_wordAddr (f : BitVec 4) (a : Imm12) : (wordAddr f a).toNat = f.toNat * 4096 + a.toNat :=
  toNat_concat f a

theorem toNat_wordXNN (f : BitVec 4) (x : Reg) (nn : Byte) :
    (wordXNN f x nn).toNat = f.toNat * 4096 + x.val * 256 + nn.toNat := by
  have h : (wordXNN f x nn).toNat = (f ++ BitVec.ofFin (w := 4) x).toNat * 2 ^ 8 + nn.toNat := toNat_concat _ nn
  rw [h, toNat_concat]
  simp only [BitVec.toNat_ofFin]
  omega

theorem toNat_wordXYN (f : BitVec 4) (x y : Reg) (n : BitVec 4) :
    (wordXYN f x y n).toNat = f.toNat * 4096 + x.val * 256 + y.val * 16 + n.toNat := by
  have h : (wordXYN f x y n).toNat =
      (f ++ BitVec.ofFin (w := 4) x ++ BitVec.ofFin (w := 4) y).toNat * 2 ^ 4 + n.toNat := toNat_concat _ n
  rw [h, toNat_concat, toNat_concat]
  simp only [BitVec.toNat_ofFin]
  omega

theorem toNat_opcodeOf (hi lo : Byte) : (opcodeOf hi lo).toNat = hi.toNat * 256 + lo.toNat := toNat_concat hi lo

/-! ### The fields of a word in each format -/

section Formats

variable (f : BitVec 4) (a : Imm12) (x y : Reg) (nn : Byte) (n : BitVec 4)

@[simp] theorem fieldF_wordAddr : fieldF (wordAddr f a) = f :=
  BitVec.eq_of_toNat_eq (by rw [toNat_fieldF, toNat_wordAddr]; omega)

@[simp] theorem fieldNNN_wordAddr : fieldNNN (wordAddr f a) = a :=
  BitVec.eq_of_toNat_eq (by rw [toNat_fieldNNN, toNat_wordAddr]; omega)

@[simp] theorem fieldF_wordXNN : fieldF (wordXNN f x nn) = f :=
  BitVec.eq_of_toNat_eq (by rw [toNat_fieldF, toNat_wordXNN]; omega)

@[simp] theorem fieldX_wordXNN : fieldX (wordXNN f x nn) = x :=
  Fin.ext (by rw [val_fieldX, toNat_wordXNN]; omega)

@[simp] theorem fieldNN_wordXNN : fieldNN (wordXNN f x nn) = nn :=
  BitVec.eq_of_toNat_eq (by rw [toNat_fieldNN, toNat_wordXNN]; omega)

@[simp] theorem fieldF_wordXYN : fieldF (wordXYN f x y n) = f :=
  BitVec.eq_of_toNat_eq (by rw [toNat_fieldF, toNat_wordXYN]; omega)

@[simp] theorem fieldX_wordXYN : fieldX (wordXYN f x y n) = x :=
  Fin.ext (by rw [val_fieldX, toNat_wordXYN]; omega)

@[simp] theorem fieldY_wordXYN : fieldY (wordXYN f x y n) = y :=
  Fin.ext (by rw [val_fieldY, toNat_wordXYN]; omega)

@[simp] theorem fieldN_wordXYN : fieldN (wordXYN f x y n) = n.toFin :=
  Fin.ext (by rw [val_fieldN, toNat_wordXYN]; simp only [BitVec.val_toFin]; omega)

end Formats

/-! ### Bytes -/

/-- A word's two bytes, high byte first, make the word again (20_memory.md R45). -/
@[simp] theorem opcodeOf_bytes (w : Word) : opcodeOf (w.extractLsb' 8 8) (w.extractLsb' 0 8) = w :=
  BitVec.eq_of_toNat_eq (by
    rw [toNat_opcodeOf, BitVec.extractLsb'_toNat, BitVec.extractLsb'_toNat, Nat.shiftRight_eq_div_pow]
    simp only [Nat.shiftRight_zero]
    omega)

/-- Decoding a word's bytes decodes the word and gives the bytes after it. -/
theorem decodeBytes_wordBytes (w : Word) (rest : List Byte) :
    decodeBytes (wordBytes w ++ rest) =
      match decode w with
      | .ok i => .ok (i, rest)
      | .error e => .error e :=
  congrArg (fun v => (match decode v with | .ok i => .ok (i, rest) | .error e => .error e :
    Except DecodeError (Instr × List Byte))) (opcodeOf_bytes w)

end Sys2Proof
end

