-- ==== Sys2Proof/Laws/Memory.lean ====
section
/-! SUPPORT. Memory: a read after a write, and the canonical form that every operation keeps. -/

namespace Sys2Proof.Machine

theorem Memory.wfFrom_cons {lo k : Nat} {c : Byte} {r : Memory} :
    Memory.wfFrom lo ((k, c) :: r) = true ↔
      lo ≤ k ∧ k < 4096 ∧ c ≠ unlisted k ∧ Memory.wfFrom (k + 1) r = true := by
  simp [Memory.wfFrom, and_assoc]

theorem Memory.wfFrom_mono {lo lo' : Nat} (h : lo' ≤ lo) {m : Memory} (hm : Memory.wfFrom lo m = true) :
    Memory.wfFrom lo' m = true := by
  cases m with
  | nil => rfl
  | cons e r =>
    obtain ⟨k, c⟩ := e
    rw [Memory.wfFrom_cons] at hm ⊢
    exact ⟨h.trans hm.1, hm.2⟩

/-- Below its first address a memory reads as unlisted. -/
theorem Memory.read_below {lo a : Nat} {m : Memory} (hm : Memory.wfFrom lo m = true) (h : a < lo) :
    m.read a = unlisted a := by
  cases m with
  | nil => rfl
  | cons e r =>
    obtain ⟨k, c⟩ := e
    rw [Memory.wfFrom_cons] at hm
    rw [Memory.read, if_pos (by omega)]

theorem Memory.write_wfFrom {lo a : Nat} {b : Byte} {m : Memory} (hm : Memory.wfFrom lo m = true) (hlo : lo ≤ a)
    (ha : a < 4096) : Memory.wfFrom lo (m.write a b) = true := by
  induction m generalizing lo with
  | nil =>
    rw [Memory.write]
    split
    · rfl
    · exact Memory.wfFrom_cons.2 ⟨hlo, ha, ‹_›, rfl⟩
  | cons e r ih =>
    obtain ⟨k, c⟩ := e
    obtain ⟨h1, h2, h3, h4⟩ := Memory.wfFrom_cons.1 hm
    rw [Memory.write]
    split
    · split
      · exact hm
      · exact Memory.wfFrom_cons.2 ⟨hlo, ha, ‹_›, Memory.wfFrom_cons.2 ⟨by omega, h2, h3, h4⟩⟩
    · split
      · subst k
        split
        · exact Memory.wfFrom_mono (by omega) h4
        · exact Memory.wfFrom_cons.2 ⟨hlo, ha, ‹_›, h4⟩
      · exact Memory.wfFrom_cons.2 ⟨h1, h2, h3, ih h4 (by omega)⟩

/-- A write keeps the canonical form. -/
theorem Memory.write_wf {a : Nat} {b : Byte} {m : Memory} (hm : m.wf = true) (ha : a < 4096) :
    (m.write a b).wf = true :=
  Memory.write_wfFrom hm (Nat.zero_le a) ha

theorem Memory.read_write_from {lo a a' : Nat} {b : Byte} {m : Memory} (hm : Memory.wfFrom lo m = true) :
    (m.write a b).read a' = if a' = a then b else m.read a' := by
  induction m generalizing lo with
  | nil =>
    rw [Memory.write]
    split
    · rename_i h
      split
      · rename_i h'
        rw [h', h, Memory.read]
      · rfl
    · rename_i h
      rw [Memory.read, Memory.read]
      split
      · rw [if_neg (by omega)]
      · rfl
  | cons e r ih =>
    obtain ⟨k, c⟩ := e
    obtain ⟨h1, h2, h3, h4⟩ := Memory.wfFrom_cons.1 hm
    rw [Memory.write]
    split
    · rename_i hk
      split
      · rename_i hb
        split
        · rename_i h'
          rw [h', hb, Memory.read, if_pos hk]
        · rfl
      · rw [Memory.read]
        split
        · rw [if_neg (by omega), Memory.read, if_pos (by omega)]
        · split <;> rfl
    · split
      · rename_i hak
        subst hak
        split
        · rename_i hb
          split
          · rename_i h'
            rw [h', hb, Memory.read_below h4 (by omega)]
          · rw [Memory.read]
            split
            · rw [Memory.read_below h4 (by omega)]
            · rfl
        · simp only [Memory.read]
          split
          · rw [if_neg (by omega)]
          · split <;> rfl
      · rw [Memory.read, ih h4, Memory.read]
        split
        · rw [if_neg (by omega)]
        · split
          · rw [if_neg (by omega)]
          · rfl

/-- A read after a write gives the value written at that address, and the old byte everywhere else. -/
theorem Memory.read_write {a a' : Nat} {b : Byte} {m : Memory} (hm : m.wf = true) :
    (m.write a b).read a' = if a' = a then b else m.read a' :=
  Memory.read_write_from hm

/-- Storing bytes inside the address space keeps the canonical form. -/
theorem Memory.writeList_wf {a : Nat} {bs : List Byte} {m : Memory} (hm : m.wf = true)
    (h : a + bs.length ≤ 4096) : (m.writeList a bs).wf = true := by
  induction bs generalizing a m with
  | nil => exact hm
  | cons b bs ih =>
    simp only [List.length_cons] at h
    exact ih (Memory.write_wf hm (by omega)) (by omega)

/-- The reset memory is in canonical form. -/
theorem Memory.reset_wf : State.reset.mem.wf = true := rfl

/-- What a run of stores leaves at each address. -/
theorem Memory.read_writeList {a a' : Nat} {bs : List Byte} {m : Memory} (hm : m.wf = true)
    (h : a + bs.length ≤ 4096) :
    (m.writeList a bs).read a' = if a ≤ a' then (bs[a' - a]?).getD (m.read a') else m.read a' := by
  induction bs generalizing a m with
  | nil => simp [Memory.writeList]
  | cons b bs ih =>
    simp only [List.length_cons] at h
    rw [Memory.writeList, ih (Memory.write_wf hm (by omega)) (by omega), Memory.read_write hm]
    by_cases h1 : a' = a
    · subst h1
      simp
    · by_cases h2 : a ≤ a'
      · obtain ⟨k, rfl⟩ : ∃ k, a' = a + 1 + k := ⟨a' - (a + 1), by omega⟩
        have e1 : a + 1 + k - (a + 1) = k := by omega
        have e2 : a + 1 + k - a = k + 1 := by omega
        simp [h1, h2, e1, e2]
      · rw [if_neg (by omega), if_neg h1, if_neg h2]

end Sys2Proof.Machine
end

