-- ==== Sys2Proof/Laws/State.lean ====
section
/-! SUPPORT. What each update of the state does to each field. -/

namespace Sys2Proof.Machine

variable (s : State)

/-! ### `State.setReg` -/

@[simp] theorem setReg_v (x : Reg) (b : Byte) : (s.setReg x b).v = s.v.set x b := rfl
@[simp] theorem setReg_i (x : Reg) (b : Byte) : (s.setReg x b).i = s.i := rfl
@[simp] theorem setReg_pc (x : Reg) (b : Byte) : (s.setReg x b).pc = s.pc := rfl
@[simp] theorem setReg_stack (x : Reg) (b : Byte) : (s.setReg x b).stack = s.stack := rfl
@[simp] theorem setReg_sp (x : Reg) (b : Byte) : (s.setReg x b).sp = s.sp := rfl
@[simp] theorem setReg_dt (x : Reg) (b : Byte) : (s.setReg x b).dt = s.dt := rfl
@[simp] theorem setReg_st (x : Reg) (b : Byte) : (s.setReg x b).st = s.st := rfl
@[simp] theorem setReg_mem (x : Reg) (b : Byte) : (s.setReg x b).mem = s.mem := rfl
@[simp] theorem setReg_display (x : Reg) (b : Byte) : (s.setReg x b).display = s.display := rfl
@[simp] theorem setReg_dirty (x : Reg) (b : Byte) : (s.setReg x b).dirty = s.dirty := rfl
@[simp] theorem setReg_keys (x : Reg) (b : Byte) : (s.setReg x b).keys = s.keys := rfl
@[simp] theorem setReg_inputs (x : Reg) (b : Byte) : (s.setReg x b).inputs = s.inputs := rfl
@[simp] theorem setReg_stepCount (x : Reg) (b : Byte) : (s.setReg x b).stepCount = s.stepCount := rfl
@[simp] theorem setReg_beep (x : Reg) (b : Byte) : (s.setReg x b).beep = s.beep := rfl

/-! ### `State.setI` -/

@[simp] theorem setI_v (w : Word) : (s.setI w).v = s.v := rfl
@[simp] theorem setI_i (w : Word) : (s.setI w).i = w := rfl
@[simp] theorem setI_pc (w : Word) : (s.setI w).pc = s.pc := rfl
@[simp] theorem setI_stack (w : Word) : (s.setI w).stack = s.stack := rfl
@[simp] theorem setI_sp (w : Word) : (s.setI w).sp = s.sp := rfl
@[simp] theorem setI_dt (w : Word) : (s.setI w).dt = s.dt := rfl
@[simp] theorem setI_st (w : Word) : (s.setI w).st = s.st := rfl
@[simp] theorem setI_mem (w : Word) : (s.setI w).mem = s.mem := rfl
@[simp] theorem setI_display (w : Word) : (s.setI w).display = s.display := rfl
@[simp] theorem setI_dirty (w : Word) : (s.setI w).dirty = s.dirty := rfl
@[simp] theorem setI_keys (w : Word) : (s.setI w).keys = s.keys := rfl
@[simp] theorem setI_inputs (w : Word) : (s.setI w).inputs = s.inputs := rfl
@[simp] theorem setI_stepCount (w : Word) : (s.setI w).stepCount = s.stepCount := rfl
@[simp] theorem setI_beep (w : Word) : (s.setI w).beep = s.beep := rfl

/-! ### `State.advance` -/

@[simp] theorem advance_v : (s.advance).v = s.v := rfl
@[simp] theorem advance_i : (s.advance).i = s.i := rfl
@[simp] theorem advance_pc : (s.advance).pc = s.pc + 2 := rfl
@[simp] theorem advance_stack : (s.advance).stack = s.stack := rfl
@[simp] theorem advance_sp : (s.advance).sp = s.sp := rfl
@[simp] theorem advance_dt : (s.advance).dt = s.dt := rfl
@[simp] theorem advance_st : (s.advance).st = s.st := rfl
@[simp] theorem advance_mem : (s.advance).mem = s.mem := rfl
@[simp] theorem advance_display : (s.advance).display = s.display := rfl
@[simp] theorem advance_dirty : (s.advance).dirty = s.dirty := rfl
@[simp] theorem advance_keys : (s.advance).keys = s.keys := rfl
@[simp] theorem advance_inputs : (s.advance).inputs = s.inputs := rfl
@[simp] theorem advance_stepCount : (s.advance).stepCount = s.stepCount := rfl
@[simp] theorem advance_beep : (s.advance).beep = s.beep := rfl

/-! ### `State.skipIf` -/

@[simp] theorem skipIf_v (c : Bool) : (s.skipIf c).v = s.v := rfl
@[simp] theorem skipIf_i (c : Bool) : (s.skipIf c).i = s.i := rfl
@[simp] theorem skipIf_pc (c : Bool) : (s.skipIf c).pc = s.pc + (if c then 4 else 2) := rfl
@[simp] theorem skipIf_stack (c : Bool) : (s.skipIf c).stack = s.stack := rfl
@[simp] theorem skipIf_sp (c : Bool) : (s.skipIf c).sp = s.sp := rfl
@[simp] theorem skipIf_dt (c : Bool) : (s.skipIf c).dt = s.dt := rfl
@[simp] theorem skipIf_st (c : Bool) : (s.skipIf c).st = s.st := rfl
@[simp] theorem skipIf_mem (c : Bool) : (s.skipIf c).mem = s.mem := rfl
@[simp] theorem skipIf_display (c : Bool) : (s.skipIf c).display = s.display := rfl
@[simp] theorem skipIf_dirty (c : Bool) : (s.skipIf c).dirty = s.dirty := rfl
@[simp] theorem skipIf_keys (c : Bool) : (s.skipIf c).keys = s.keys := rfl
@[simp] theorem skipIf_inputs (c : Bool) : (s.skipIf c).inputs = s.inputs := rfl
@[simp] theorem skipIf_stepCount (c : Bool) : (s.skipIf c).stepCount = s.stepCount := rfl
@[simp] theorem skipIf_beep (c : Bool) : (s.skipIf c).beep = s.beep := rfl

/-! ### `State.jumpTo` -/

@[simp] theorem jumpTo_v (target : Word) : (s.jumpTo target).v = s.v := rfl
@[simp] theorem jumpTo_i (target : Word) : (s.jumpTo target).i = s.i := rfl
@[simp] theorem jumpTo_pc (target : Word) : (s.jumpTo target).pc = target := rfl
@[simp] theorem jumpTo_stack (target : Word) : (s.jumpTo target).stack = s.stack := rfl
@[simp] theorem jumpTo_sp (target : Word) : (s.jumpTo target).sp = s.sp := rfl
@[simp] theorem jumpTo_dt (target : Word) : (s.jumpTo target).dt = s.dt := rfl
@[simp] theorem jumpTo_st (target : Word) : (s.jumpTo target).st = s.st := rfl
@[simp] theorem jumpTo_mem (target : Word) : (s.jumpTo target).mem = s.mem := rfl
@[simp] theorem jumpTo_display (target : Word) : (s.jumpTo target).display = s.display := rfl
@[simp] theorem jumpTo_dirty (target : Word) : (s.jumpTo target).dirty = s.dirty := rfl
@[simp] theorem jumpTo_keys (target : Word) : (s.jumpTo target).keys = s.keys := rfl
@[simp] theorem jumpTo_inputs (target : Word) : (s.jumpTo target).inputs = s.inputs := rfl
@[simp] theorem jumpTo_stepCount (target : Word) : (s.jumpTo target).stepCount = s.stepCount := rfl
@[simp] theorem jumpTo_beep (target : Word) : (s.jumpTo target).beep = s.beep := rfl

/-! ### `State.latchKeys` -/

@[simp] theorem latchKeys_v : (s.latchKeys).v = s.v := rfl
@[simp] theorem latchKeys_i : (s.latchKeys).i = s.i := rfl
@[simp] theorem latchKeys_pc : (s.latchKeys).pc = s.pc := rfl
@[simp] theorem latchKeys_stack : (s.latchKeys).stack = s.stack := rfl
@[simp] theorem latchKeys_sp : (s.latchKeys).sp = s.sp := rfl
@[simp] theorem latchKeys_dt : (s.latchKeys).dt = s.dt := rfl
@[simp] theorem latchKeys_st : (s.latchKeys).st = s.st := rfl
@[simp] theorem latchKeys_mem : (s.latchKeys).mem = s.mem := rfl
@[simp] theorem latchKeys_display : (s.latchKeys).display = s.display := rfl
@[simp] theorem latchKeys_dirty : (s.latchKeys).dirty = s.dirty := rfl
@[simp] theorem latchKeys_keys : (s.latchKeys).keys = s.input.keys := rfl
@[simp] theorem latchKeys_inputs : (s.latchKeys).inputs = s.inputs := rfl
@[simp] theorem latchKeys_stepCount : (s.latchKeys).stepCount = s.stepCount := rfl
@[simp] theorem latchKeys_beep : (s.latchKeys).beep = s.beep := rfl

/-! ### `State.writeAlu` -/

@[simp] theorem writeAlu_v (x : Reg) (o : AluOut) : (s.writeAlu x o).v = (s.v.set 15 (flagByte o.flag)).set x o.result := rfl
@[simp] theorem writeAlu_i (x : Reg) (o : AluOut) : (s.writeAlu x o).i = s.i := rfl
@[simp] theorem writeAlu_pc (x : Reg) (o : AluOut) : (s.writeAlu x o).pc = s.pc := rfl
@[simp] theorem writeAlu_stack (x : Reg) (o : AluOut) : (s.writeAlu x o).stack = s.stack := rfl
@[simp] theorem writeAlu_sp (x : Reg) (o : AluOut) : (s.writeAlu x o).sp = s.sp := rfl
@[simp] theorem writeAlu_dt (x : Reg) (o : AluOut) : (s.writeAlu x o).dt = s.dt := rfl
@[simp] theorem writeAlu_st (x : Reg) (o : AluOut) : (s.writeAlu x o).st = s.st := rfl
@[simp] theorem writeAlu_mem (x : Reg) (o : AluOut) : (s.writeAlu x o).mem = s.mem := rfl
@[simp] theorem writeAlu_display (x : Reg) (o : AluOut) : (s.writeAlu x o).display = s.display := rfl
@[simp] theorem writeAlu_dirty (x : Reg) (o : AluOut) : (s.writeAlu x o).dirty = s.dirty := rfl
@[simp] theorem writeAlu_keys (x : Reg) (o : AluOut) : (s.writeAlu x o).keys = s.keys := rfl
@[simp] theorem writeAlu_inputs (x : Reg) (o : AluOut) : (s.writeAlu x o).inputs = s.inputs := rfl
@[simp] theorem writeAlu_stepCount (x : Reg) (o : AluOut) : (s.writeAlu x o).stepCount = s.stepCount := rfl
@[simp] theorem writeAlu_beep (x : Reg) (o : AluOut) : (s.writeAlu x o).beep = s.beep := rfl

/-! ### `State.loadRegs` -/

@[simp] theorem loadRegs_v (bytes : List Byte) : (s.loadRegs bytes).v = Vector.ofFn fun k : Fin 16 => (bytes[k.val]?).getD s.v[k] := rfl
@[simp] theorem loadRegs_i (bytes : List Byte) : (s.loadRegs bytes).i = s.i := rfl
@[simp] theorem loadRegs_pc (bytes : List Byte) : (s.loadRegs bytes).pc = s.pc := rfl
@[simp] theorem loadRegs_stack (bytes : List Byte) : (s.loadRegs bytes).stack = s.stack := rfl
@[simp] theorem loadRegs_sp (bytes : List Byte) : (s.loadRegs bytes).sp = s.sp := rfl
@[simp] theorem loadRegs_dt (bytes : List Byte) : (s.loadRegs bytes).dt = s.dt := rfl
@[simp] theorem loadRegs_st (bytes : List Byte) : (s.loadRegs bytes).st = s.st := rfl
@[simp] theorem loadRegs_mem (bytes : List Byte) : (s.loadRegs bytes).mem = s.mem := rfl
@[simp] theorem loadRegs_display (bytes : List Byte) : (s.loadRegs bytes).display = s.display := rfl
@[simp] theorem loadRegs_dirty (bytes : List Byte) : (s.loadRegs bytes).dirty = s.dirty := rfl
@[simp] theorem loadRegs_keys (bytes : List Byte) : (s.loadRegs bytes).keys = s.keys := rfl
@[simp] theorem loadRegs_inputs (bytes : List Byte) : (s.loadRegs bytes).inputs = s.inputs := rfl
@[simp] theorem loadRegs_stepCount (bytes : List Byte) : (s.loadRegs bytes).stepCount = s.stepCount := rfl
@[simp] theorem loadRegs_beep (bytes : List Byte) : (s.loadRegs bytes).beep = s.beep := rfl

/-! ### `State.endStep` -/

@[simp] theorem endStep_v : (s.endStep).v = s.v := rfl
@[simp] theorem endStep_i : (s.endStep).i = s.i := rfl
@[simp] theorem endStep_pc : (s.endStep).pc = s.pc := rfl
@[simp] theorem endStep_stack : (s.endStep).stack = s.stack := rfl
@[simp] theorem endStep_sp : (s.endStep).sp = s.sp := rfl
@[simp] theorem endStep_dt : (s.endStep).dt = countDown s.dt s.input.ticks := rfl
@[simp] theorem endStep_st : (s.endStep).st = countDown s.st s.input.ticks := rfl
@[simp] theorem endStep_mem : (s.endStep).mem = s.mem := rfl
@[simp] theorem endStep_display : (s.endStep).display = s.display := rfl
@[simp] theorem endStep_dirty : (s.endStep).dirty = s.dirty := rfl
@[simp] theorem endStep_keys : (s.endStep).keys = s.keys := rfl
@[simp] theorem endStep_inputs : (s.endStep).inputs = s.inputs.tail := rfl
@[simp] theorem endStep_stepCount : (s.endStep).stepCount = s.stepCount + 1 := rfl
@[simp] theorem endStep_beep : (s.endStep).beep = beepEdge s.st s.input.ticks := rfl

/-! ### `State.supply` -/

@[simp] theorem supply_v (inp : StepInput) : (s.supply inp).v = s.v := rfl
@[simp] theorem supply_i (inp : StepInput) : (s.supply inp).i = s.i := rfl
@[simp] theorem supply_pc (inp : StepInput) : (s.supply inp).pc = s.pc := rfl
@[simp] theorem supply_stack (inp : StepInput) : (s.supply inp).stack = s.stack := rfl
@[simp] theorem supply_sp (inp : StepInput) : (s.supply inp).sp = s.sp := rfl
@[simp] theorem supply_dt (inp : StepInput) : (s.supply inp).dt = s.dt := rfl
@[simp] theorem supply_st (inp : StepInput) : (s.supply inp).st = s.st := rfl
@[simp] theorem supply_mem (inp : StepInput) : (s.supply inp).mem = s.mem := rfl
@[simp] theorem supply_display (inp : StepInput) : (s.supply inp).display = s.display := rfl
@[simp] theorem supply_dirty (inp : StepInput) : (s.supply inp).dirty = s.dirty := rfl
@[simp] theorem supply_keys (inp : StepInput) : (s.supply inp).keys = s.keys := rfl
@[simp] theorem supply_inputs (inp : StepInput) : (s.supply inp).inputs = inp :: s.inputs := rfl
@[simp] theorem supply_stepCount (inp : StepInput) : (s.supply inp).stepCount = s.stepCount := rfl
@[simp] theorem supply_beep (inp : StepInput) : (s.supply inp).beep = s.beep := rfl

/-! ### Reading after an update -/

theorem reg_def (x : Reg) : s.reg x = s.v[x] := rfl

theorem reg_setReg (x y : Reg) (b : Byte) : (s.setReg x b).reg y = if y = x then b else s.reg y := by
  simp only [State.reg, State.setReg, Fin.getElem_fin, Vector.getElem_set, Fin.ext_iff, eq_comm]

theorem reg_loadRegs (bytes : List Byte) (k : Reg) : (s.loadRegs bytes).reg k = (bytes[k.val]?).getD (s.reg k) := by
  simp [State.reg, State.loadRegs]

/-- The flag is written before the result (42_alu.md R87). -/
theorem reg_writeAlu (x y : Reg) (o : AluOut) :
    (s.writeAlu x o).reg y = if y = x then o.result else if y = vf then flagByte o.flag else s.reg y := by
  simp only [State.writeAlu, reg_setReg]

@[simp] theorem input_supply (inp : StepInput) : (s.supply inp).input = inp := rfl

@[simp] theorem input_latchKeys : s.latchKeys.input = s.input := rfl

end Sys2Proof.Machine
end

