-- ==== Sys2Proof/Laws/Ops.lean ====
section
/-! SUPPORT. What each shared operation can do, said once. -/

namespace Sys2Proof.Machine

/-! ### Going on after an operation that may raise -/

@[simp] theorem andThen_ok {α : Type} (a : α) (k : α → Host.Outcome State Fault Refusal) :
    andThen (.ok a) k = k a := rfl

@[simp] theorem andThen_error {α : Type} (f : Fault) (k : α → Host.Outcome State Fault Refusal) :
    andThen (.error f) k = .fault f := rfl

/-- If the whole answers a next state, the operation gave a value and the rest answered that state. -/
theorem andThen_next {α : Type} {r : Except Fault α} {k : α → Host.Outcome State Fault Refusal} {t : State}
    (h : andThen r k = .next t) : ∃ a, r = .ok a ∧ k a = .next t := by
  cases r with
  | ok a => exact ⟨a, rfl, h⟩
  | error f => simp at h

/-! ### Memory runs (20_memory.md R43) -/

theorem memRead_ok {s : State} {a : Nat} (h : a < 4096) : memRead s a = .ok (s.mem.read a) := if_pos h

theorem memRead_error {s : State} {a : Nat} (h : 4096 ≤ a) : memRead s a = .error (.memoryFault a) :=
  if_neg (show ¬ a < 4096 by omega)

/-- A run of reads inside memory gives the bytes in order. -/
theorem readBytes_ok {s : State} {a n : Nat} (h : a + n ≤ 4096 ∨ n = 0) :
    readBytes s a n = .ok ((List.range' a n).map s.mem.read) := by
  induction n generalizing a with
  | zero => rfl
  | succ n ih =>
    rw [readBytes, memRead_ok (by omega), ih (by omega)]
    simp [List.range'_succ]

/-- A run of reads that leaves memory raises the lowest address outside. -/
theorem readBytes_error {s : State} {a n : Nat} (hn : n ≠ 0) (h : 4096 < a + n) :
    readBytes s a n = .error (.memoryFault (max a 4096)) := by
  induction n generalizing a with
  | zero => exact absurd rfl hn
  | succ n ih =>
    by_cases ha : a < 4096
    · have hm : max (a + 1) 4096 = max a 4096 := by omega
      rw [readBytes, memRead_ok ha, ih (by omega) (by omega), hm]
    · rw [readBytes, memRead_error (by omega), Nat.max_eq_left (by omega)]

/-- A run of stores inside memory changes memory alone. -/
theorem writeBytes_ok {s : State} {a : Nat} {bs : List Byte} (h : a + bs.length ≤ 4096 ∨ bs = []) :
    writeBytes s a bs = .ok { s with mem := s.mem.writeList a bs } := by
  induction bs generalizing a s with
  | nil => rfl
  | cons b bs ih =>
    simp only [List.length_cons, reduceCtorEq, or_false] at h
    rw [writeBytes, memWrite, if_pos (show a < 4096 by omega)]
    exact ih (Or.inl (by omega))

/-- A run of stores that leaves memory raises the lowest address outside. -/
theorem writeBytes_error {s : State} {a : Nat} {bs : List Byte} (hn : bs ≠ []) (h : 4096 < a + bs.length) :
    writeBytes s a bs = .error (.memoryFault (max a 4096)) := by
  induction bs generalizing a s with
  | nil => exact absurd rfl hn
  | cons b bs ih =>
    simp only [List.length_cons] at h
    by_cases ha : a < 4096
    · have hm : max (a + 1) 4096 = max a 4096 := by omega
      have hbs : bs ≠ [] := by
        rintro rfl
        simp only [List.length_nil] at h
        omega
      rw [writeBytes, memWrite, if_pos ha, ← hm]
      exact ih hbs (by omega)
    · rw [writeBytes, memWrite, if_neg ha, Nat.max_eq_left (by omega)]

/-- If a run of reads gives bytes, it lies inside memory and they are its bytes in order. -/
theorem readBytes_inv {s : State} {a n : Nat} {bs : List Byte} (h : readBytes s a n = .ok bs) :
    (a + n ≤ 4096 ∨ n = 0) ∧ bs = (List.range' a n).map s.mem.read := by
  by_cases hb : a + n ≤ 4096 ∨ n = 0
  · rw [readBytes_ok hb] at h
    exact ⟨hb, (Except.ok.inj h).symm⟩
  · rw [readBytes_error (by omega) (by omega)] at h
    cases h

/-- If a run of stores gives a state, it lies inside memory, and memory alone has changed. -/
theorem writeBytes_inv {s t : State} {a : Nat} {bs : List Byte} (h : writeBytes s a bs = .ok t) :
    (a + bs.length ≤ 4096 ∨ bs = []) ∧ t = { s with mem := s.mem.writeList a bs } := by
  by_cases hb : a + bs.length ≤ 4096 ∨ bs = []
  · rw [writeBytes_ok hb] at h
    exact ⟨hb, (Except.ok.inj h).symm⟩
  · rw [writeBytes_error (fun h0 => hb (Or.inr h0)) (by omega)] at h
    cases h

@[simp] theorem length_bcdDigits (b : Byte) : (bcdDigits b).length = 3 := rfl

@[simp] theorem length_regsUpTo (s : State) (x : Reg) : (s.regsUpTo x).length = x.val + 1 := by
  simp [State.regsUpTo]

/-- A fetch inside memory gives the two bytes, the first in the high half (30_encoding.md R57). -/
theorem fetchOpcode_ok {s : State} (h : s.pc.toNat + 1 < 4096) :
    fetchOpcode s = .ok (opcodeOf (s.mem.read s.pc.toNat) (s.mem.read (s.pc.toNat + 1))) := by
  rw [fetchOpcode, memRead_ok (by omega), memRead_ok h]

/-- A fetch that leaves memory raises the lowest address outside. -/
theorem fetchOpcode_error {s : State} (h : 4096 ≤ s.pc.toNat + 1) :
    fetchOpcode s = .error (.memoryFault (max s.pc.toNat 4096)) := by
  by_cases hp : s.pc.toNat < 4096
  · have : s.pc.toNat + 1 = max s.pc.toNat 4096 := by omega
    rw [fetchOpcode, memRead_ok hp, memRead_error h, this]
  · rw [fetchOpcode, memRead_error (by omega), Nat.max_eq_left (by omega)]

/-- The key snapshot does not change what is fetched. -/
@[simp] theorem fetchOpcode_latchKeys (s : State) : fetchOpcode s.latchKeys = fetchOpcode s := rfl

/-! ### The stack (10_state.md R26) -/

theorem pushPc_of_lt {s : State} (h : s.sp.val + 1 < 16) :
    pushPc s = .ok { s with sp := ⟨s.sp.val + 1, h⟩, stack := s.stack.set (s.sp.val + 1) s.pc } := dif_pos h

theorem pushPc_full {s : State} (h : s.sp.val = 15) : pushPc s = .error .stackOverflow := dif_neg (by omega)

theorem popEntry_of_pos {s : State} (h : 0 < s.sp.val) :
    popEntry s = .ok (s.stack[s.sp], { s with sp := ⟨s.sp.val - 1, by omega⟩ }) := if_neg (by omega)

theorem popEntry_empty {s : State} (h : s.sp.val = 0) : popEntry s = .error .stackUnderflow := if_pos h

theorem pushPc_ok {s t : State} (h : pushPc s = .ok t) :
    ∃ hs : s.sp.val + 1 < 16, t = { s with sp := ⟨s.sp.val + 1, hs⟩, stack := s.stack.set (s.sp.val + 1) s.pc } := by
  rw [pushPc] at h
  split at h
  · rename_i hs
    cases h
    exact ⟨hs, rfl⟩
  · cases h

theorem popEntry_ok {s t : State} {e : Word} (h : popEntry s = .ok (e, t)) :
    s.sp.val ≠ 0 ∧ e = s.stack[s.sp] ∧ t = { s with sp := ⟨s.sp.val - 1, by omega⟩ } := by
  rw [popEntry] at h
  split at h
  · cases h
  · rename_i hs
    cases h
    exact ⟨hs, rfl, rfl⟩

/-! ### Operands -/

theorem nibbleOperand_of_eq {i : Instr} {b : Byte} {s : State} {k : Fin 16} (h : b.toNat = k.val) :
    nibbleOperand i b s = .ok k := by
  have hk : b.toNat < 16 := h ▸ k.isLt
  have he : (⟨b.toNat, hk⟩ : Fin 16) = k := Fin.ext h
  rw [nibbleOperand, dif_pos hk, he]

theorem nibbleOperand_of_gt {i : Instr} {b : Byte} {s : State} (h : 15 < b.toNat) :
    nibbleOperand i b s = .error (.undefinedOperand (encode i) s.pc) := dif_neg (by omega)

theorem nibbleOperand_ok {i : Instr} {b : Byte} {s : State} {k : Fin 16} (h : nibbleOperand i b s = .ok k) :
    k.val = b.toNat := by
  rw [nibbleOperand] at h
  split at h
  · cases h
    rfl
  · cases h

/-! ### The step -/

/-- If a step completes, a word was fetched, it decoded to an instruction, the instruction completed on the state with
the step's keys, and the timer stage ended the step. -/
theorem step_next {s u : State} (h : step s = .next u) :
    ∃ w i t, fetchOpcode s = .ok w ∧ decode w = .ok i ∧ exec i s.latchKeys = .next t ∧ u = t.endStep := by
  obtain ⟨w, hw, h⟩ := andThen_next h
  rw [runOpcode] at h
  split at h
  · cases h
  · rename_i i hi
    cases ht : exec i s.latchKeys with
    | next t =>
      rw [ht] at h
      cases h
      exact ⟨w, i, t, hw, hi, ht, rfl⟩
    | fault f => rw [ht] at h; cases h
    | refused r => rw [ht] at h; cases h

end Sys2Proof.Machine
end

