-- ==== Sys2Proof/Laws/PerInstr.lean ====
section
/-! SUPPORT. Facts about each instruction as syntax. Family Fields: its operand fields fit, and its opcode has the
pattern of its row of spec/opcode_table.json. -/

namespace Sys2Proof.Laws.Fields

open Sys2Proof.Claims (rowOf)

/-- The operand fields fit in their bits, and the opcode has the row's pattern, which is one of the table's. -/
def Statement (i : Instr) : Prop :=
  i.wellFormed = true ∧ matchesRow (encode i) (rowOf i) = true ∧ rowOf i ∈ opcodeRows

/-! ### The pattern of each format: a mask keeps the fixed digits and clears the operand digits -/

section Patterns

variable (f : BitVec 4) (a : Imm12) (x y : Reg) (nn s : Byte) (n : BitVec 4)

theorem and_wordAddr : wordAddr f a &&& 0xF000 = wordAddr f 0 := by
  have h : wordAddr f a &&& wordAddr (BitVec.allOnes 4) 0 = wordAddr (f &&& BitVec.allOnes 4) (a &&& 0#12) :=
    BitVec.and_append
  rwa [BitVec.and_allOnes, BitVec.and_zero] at h

theorem and_wordXNN : wordXNN f x nn &&& 0xF000 = wordXNN f 0 0 := by
  have h : wordXNN f x nn &&& wordXNN (BitVec.allOnes 4) 0 0 =
      ((f ++ BitVec.ofFin (w := 4) x) &&& (BitVec.allOnes 4 ++ 0#4)) ++ (nn &&& 0#8) := BitVec.and_append
  rwa [BitVec.and_append, BitVec.and_allOnes, BitVec.and_zero, BitVec.and_zero] at h

theorem and_wordXS : wordXS f x s &&& 0xF0FF = wordXS f 0 s := by
  have h : wordXNN f x s &&& wordXNN (BitVec.allOnes 4) 0 (BitVec.allOnes 8) =
      ((f ++ BitVec.ofFin (w := 4) x) &&& (BitVec.allOnes 4 ++ 0#4)) ++ (s &&& BitVec.allOnes 8) := BitVec.and_append
  rwa [BitVec.and_append, BitVec.and_allOnes, BitVec.and_allOnes, BitVec.and_zero] at h

theorem and_wordXYN : wordXYN f x y n &&& 0xF00F = wordXYN f 0 0 n := by
  have h : wordXYN f x y n &&& wordXYN (BitVec.allOnes 4) 0 0 (BitVec.allOnes 4) =
      ((f ++ BitVec.ofFin (w := 4) x ++ BitVec.ofFin (w := 4) y) &&& (BitVec.allOnes 4 ++ 0#4 ++ 0#4)) ++
        (n &&& BitVec.allOnes 4) := BitVec.and_append
  rwa [BitVec.and_append, BitVec.and_append, BitVec.and_allOnes, BitVec.and_allOnes, BitVec.and_zero,
    BitVec.and_zero] at h

theorem and_wordXYN_family : wordXYN f x y n &&& 0xF000 = wordXYN f 0 0 0 := by
  have h : wordXYN f x y n &&& wordXYN (BitVec.allOnes 4) 0 0 0 =
      ((f ++ BitVec.ofFin (w := 4) x ++ BitVec.ofFin (w := 4) y) &&& (BitVec.allOnes 4 ++ 0#4 ++ 0#4)) ++
        (n &&& 0#4) := BitVec.and_append
  rwa [BitVec.and_append, BitVec.and_append, BitVec.and_allOnes, BitVec.and_zero, BitVec.and_zero,
    BitVec.and_zero] at h

end Patterns

/-- A word masked to a row's match has the row's pattern. -/
theorem matchesRow_of {w mask m v : Word} (h : w &&& mask = v) (hv : v = m) : matchesRow w (mask, m) = true := by
  simp [matchesRow, h, hv]

/-- Membership in the table, by running over it. -/
theorem isRow {row : Word × Word} (h : opcodeRows.contains row = true) : row ∈ opcodeRows := by
  simpa using h

/-! ### Operand fields fit -/

theorem fits_x (x : Reg) : (FieldValue.x x).fits = true := by
  simp [FieldValue.fits, FieldValue.x, x.isLt]

theorem fits_y (y : Reg) : (FieldValue.y y).fits = true := by
  simp [FieldValue.fits, FieldValue.y, y.isLt]

theorem fits_n (n : Fin 16) : (FieldValue.n n).fits = true := by
  simp [FieldValue.fits, FieldValue.n, n.isLt]

theorem fits_nn (nn : Byte) : (FieldValue.nn nn).fits = true := by
  simp [FieldValue.fits, FieldValue.nn, nn.isLt]

theorem fits_nnn (nnn : Imm12) : (FieldValue.nnn nnn).fits = true := by
  simp [FieldValue.fits, FieldValue.nnn, nnn.isLt]

/-! ### One lemma per instruction -/

theorem cls : Statement .cls := ⟨rfl, rfl, isRow rfl⟩

theorem ret : Statement .ret := ⟨rfl, rfl, isRow rfl⟩

theorem jp (nnn : Imm12) : Statement (.jp nnn) :=
  ⟨by simp [Instr.wellFormed, Instr.fields, fits_nnn], matchesRow_of (and_wordAddr _ nnn) (by decide), isRow rfl⟩

theorem call (nnn : Imm12) : Statement (.call nnn) :=
  ⟨by simp [Instr.wellFormed, Instr.fields, fits_nnn], matchesRow_of (and_wordAddr _ nnn) (by decide), isRow rfl⟩

theorem seImm (x : Reg) (nn : Byte) : Statement (.seImm x nn) :=
  ⟨by simp [Instr.wellFormed, Instr.fields, fits_x, fits_nn], matchesRow_of (and_wordXNN _ x nn) (by decide), isRow rfl⟩

theorem sneImm (x : Reg) (nn : Byte) : Statement (.sneImm x nn) :=
  ⟨by simp [Instr.wellFormed, Instr.fields, fits_x, fits_nn], matchesRow_of (and_wordXNN _ x nn) (by decide), isRow rfl⟩

theorem seReg (x : Reg) (y : Reg) : Statement (.seReg x y) :=
  ⟨by simp [Instr.wellFormed, Instr.fields, fits_x, fits_y], matchesRow_of (and_wordXYN _ x y _) (by decide), isRow rfl⟩

theorem ldImm (x : Reg) (nn : Byte) : Statement (.ldImm x nn) :=
  ⟨by simp [Instr.wellFormed, Instr.fields, fits_x, fits_nn], matchesRow_of (and_wordXNN _ x nn) (by decide), isRow rfl⟩

theorem addImm (x : Reg) (nn : Byte) : Statement (.addImm x nn) :=
  ⟨by simp [Instr.wellFormed, Instr.fields, fits_x, fits_nn], matchesRow_of (and_wordXNN _ x nn) (by decide), isRow rfl⟩

theorem ldReg (x : Reg) (y : Reg) : Statement (.ldReg x y) :=
  ⟨by simp [Instr.wellFormed, Instr.fields, fits_x, fits_y], matchesRow_of (and_wordXYN _ x y _) (by decide), isRow rfl⟩

theorem orReg (x : Reg) (y : Reg) : Statement (.orReg x y) :=
  ⟨by simp [Instr.wellFormed, Instr.fields, fits_x, fits_y], matchesRow_of (and_wordXYN _ x y _) (by decide), isRow rfl⟩

theorem andReg (x : Reg) (y : Reg) : Statement (.andReg x y) :=
  ⟨by simp [Instr.wellFormed, Instr.fields, fits_x, fits_y], matchesRow_of (and_wordXYN _ x y _) (by decide), isRow rfl⟩

theorem xorReg (x : Reg) (y : Reg) : Statement (.xorReg x y) :=
  ⟨by simp [Instr.wellFormed, Instr.fields, fits_x, fits_y], matchesRow_of (and_wordXYN _ x y _) (by decide), isRow rfl⟩

theorem addReg (x : Reg) (y : Reg) : Statement (.addReg x y) :=
  ⟨by simp [Instr.wellFormed, Instr.fields, fits_x, fits_y], matchesRow_of (and_wordXYN _ x y _) (by decide), isRow rfl⟩

theorem sub (x : Reg) (y : Reg) : Statement (.sub x y) :=
  ⟨by simp [Instr.wellFormed, Instr.fields, fits_x, fits_y], matchesRow_of (and_wordXYN _ x y _) (by decide), isRow rfl⟩

theorem shr (x : Reg) (y : Reg) : Statement (.shr x y) :=
  ⟨by simp [Instr.wellFormed, Instr.fields, fits_x, fits_y], matchesRow_of (and_wordXYN _ x y _) (by decide), isRow rfl⟩

theorem subn (x : Reg) (y : Reg) : Statement (.subn x y) :=
  ⟨by simp [Instr.wellFormed, Instr.fields, fits_x, fits_y], matchesRow_of (and_wordXYN _ x y _) (by decide), isRow rfl⟩

theorem shl (x : Reg) (y : Reg) : Statement (.shl x y) :=
  ⟨by simp [Instr.wellFormed, Instr.fields, fits_x, fits_y], matchesRow_of (and_wordXYN _ x y _) (by decide), isRow rfl⟩

theorem sneReg (x : Reg) (y : Reg) : Statement (.sneReg x y) :=
  ⟨by simp [Instr.wellFormed, Instr.fields, fits_x, fits_y], matchesRow_of (and_wordXYN _ x y _) (by decide), isRow rfl⟩

theorem ldI (nnn : Imm12) : Statement (.ldI nnn) :=
  ⟨by simp [Instr.wellFormed, Instr.fields, fits_nnn], matchesRow_of (and_wordAddr _ nnn) (by decide), isRow rfl⟩

theorem jpV0 (nnn : Imm12) : Statement (.jpV0 nnn) :=
  ⟨by simp [Instr.wellFormed, Instr.fields, fits_nnn], matchesRow_of (and_wordAddr _ nnn) (by decide), isRow rfl⟩

theorem rnd (x : Reg) (nn : Byte) : Statement (.rnd x nn) :=
  ⟨by simp [Instr.wellFormed, Instr.fields, fits_x, fits_nn], matchesRow_of (and_wordXNN _ x nn) (by decide), isRow rfl⟩

theorem drw (x : Reg) (y : Reg) (n : Fin 16) : Statement (.drw x y n) :=
  ⟨by simp [Instr.wellFormed, Instr.fields, fits_x, fits_y, fits_n], matchesRow_of (and_wordXYN_family _ x y _) (by decide), isRow rfl⟩

theorem skp (x : Reg) : Statement (.skp x) :=
  ⟨by simp [Instr.wellFormed, Instr.fields, fits_x], matchesRow_of (and_wordXS _ x _) (by decide), isRow rfl⟩

theorem sknp (x : Reg) : Statement (.sknp x) :=
  ⟨by simp [Instr.wellFormed, Instr.fields, fits_x], matchesRow_of (and_wordXS _ x _) (by decide), isRow rfl⟩

theorem ldVxDt (x : Reg) : Statement (.ldVxDt x) :=
  ⟨by simp [Instr.wellFormed, Instr.fields, fits_x], matchesRow_of (and_wordXS _ x _) (by decide), isRow rfl⟩

theorem ldDtVx (x : Reg) : Statement (.ldDtVx x) :=
  ⟨by simp [Instr.wellFormed, Instr.fields, fits_x], matchesRow_of (and_wordXS _ x _) (by decide), isRow rfl⟩

theorem ldStVx (x : Reg) : Statement (.ldStVx x) :=
  ⟨by simp [Instr.wellFormed, Instr.fields, fits_x], matchesRow_of (and_wordXS _ x _) (by decide), isRow rfl⟩

theorem addI (x : Reg) : Statement (.addI x) :=
  ⟨by simp [Instr.wellFormed, Instr.fields, fits_x], matchesRow_of (and_wordXS _ x _) (by decide), isRow rfl⟩

theorem ldF (x : Reg) : Statement (.ldF x) :=
  ⟨by simp [Instr.wellFormed, Instr.fields, fits_x], matchesRow_of (and_wordXS _ x _) (by decide), isRow rfl⟩

theorem ldB (x : Reg) : Statement (.ldB x) :=
  ⟨by simp [Instr.wellFormed, Instr.fields, fits_x], matchesRow_of (and_wordXS _ x _) (by decide), isRow rfl⟩

theorem stRegs (x : Reg) : Statement (.stRegs x) :=
  ⟨by simp [Instr.wellFormed, Instr.fields, fits_x], matchesRow_of (and_wordXS _ x _) (by decide), isRow rfl⟩

theorem ldRegs (x : Reg) : Statement (.ldRegs x) :=
  ⟨by simp [Instr.wellFormed, Instr.fields, fits_x], matchesRow_of (and_wordXS _ x _) (by decide), isRow rfl⟩

end Sys2Proof.Laws.Fields
end

