-- ==== Sys2Proof/Tests/Slice0.lean ====
section
/-! SUPPORT. The model's own tests, and a witness for the hypotheses of each statement. Expected results are those of
spec/95_test_vectors.md and of the examples of the rules named, or are worked out by hand from the rules. -/

namespace Sys2Proof.Tests

open Sys2Proof.Machine

/-! ### Well-formedness: an ill-formed term for each check -/

theorem test_field4_too_large : FieldValue.fits ⟨11, 8, 16⟩ = false := by decide
theorem test_field4_largest : FieldValue.fits ⟨11, 8, 15⟩ = true := by decide
theorem test_field8_too_large : FieldValue.fits ⟨7, 0, 256⟩ = false := by decide
theorem test_field12_too_large : FieldValue.fits ⟨11, 0, 4096⟩ = false := by decide
theorem test_field_upside_down : FieldValue.fits ⟨0, 3, 0⟩ = false := by decide
theorem test_wellFormed : (Instr.drw 15 15 15).wellFormed = true := by decide

/-- 20_memory.md R55: 3585 bytes do not fit above 0x200. -/
theorem test_image_too_large : imageFits (List.replicate 3585 7) = false := by
  simp only [imageFits, List.length_replicate]
  decide

theorem test_image_fits_exactly : imageFits (List.replicate 3584 7) = true := by
  simp only [imageFits, List.length_replicate]
  decide

/-! ### Decoding: words written out from 30_encoding.md R58 and R62 -/

theorem test_decode_cls : decode 0x00E0 = .ok .cls := by decide
theorem test_decode_ret : decode 0x00EE = .ok .ret := by decide
theorem test_decode_jp : decode 0x124E = .ok (.jp 0x24E) := by decide
theorem test_decode_call : decode 0x2EEE = .ok (.call 0xEEE) := by decide
theorem test_decode_seImm : decode 0x3014 = .ok (.seImm 0 0x14) := by decide
theorem test_decode_sneImm : decode 0x4AFE = .ok (.sneImm 10 0xFE) := by decide
theorem test_decode_seReg : decode 0x5120 = .ok (.seReg 1 2) := by decide
theorem test_decode_ldImm : decode 0x6F42 = .ok (.ldImm 15 0x42) := by decide
theorem test_decode_addImm : decode 0x7C80 = .ok (.addImm 12 0x80) := by decide
theorem test_decode_ldReg : decode 0x8FE0 = .ok (.ldReg 15 14) := by decide
theorem test_decode_orReg : decode 0x8121 = .ok (.orReg 1 2) := by decide
theorem test_decode_andReg : decode 0x8342 = .ok (.andReg 3 4) := by decide
theorem test_decode_xorReg : decode 0x8563 = .ok (.xorReg 5 6) := by decide
theorem test_decode_addReg : decode 0x8784 = .ok (.addReg 7 8) := by decide
theorem test_decode_sub : decode 0x89A5 = .ok (.sub 9 10) := by decide
theorem test_decode_shr : decode 0x8BC6 = .ok (.shr 11 12) := by decide
theorem test_decode_subn : decode 0x8DE7 = .ok (.subn 13 14) := by decide
theorem test_decode_shl : decode 0x8F0E = .ok (.shl 15 0) := by decide
theorem test_decode_sneReg : decode 0x9210 = .ok (.sneReg 2 1) := by decide
theorem test_decode_ldI : decode 0xA2F0 = .ok (.ldI 0x2F0) := by decide
theorem test_decode_jpV0 : decode 0xB300 = .ok (.jpV0 0x300) := by decide
theorem test_decode_rnd : decode 0xC30F = .ok (.rnd 3 0x0F) := by decide
theorem test_decode_drw : decode 0xD125 = .ok (.drw 1 2 5) := by decide
theorem test_decode_skp : decode 0xE19E = .ok (.skp 1) := by decide
theorem test_decode_sknp : decode 0xE8A1 = .ok (.sknp 8) := by decide
theorem test_decode_ldVxDt : decode 0xF507 = .ok (.ldVxDt 5) := by decide
theorem test_decode_ldDtVx : decode 0xF515 = .ok (.ldDtVx 5) := by decide
theorem test_decode_ldStVx : decode 0xF218 = .ok (.ldStVx 2) := by decide
theorem test_decode_addI : decode 0xF21E = .ok (.addI 2) := by decide
theorem test_decode_ldF : decode 0xFA29 = .ok (.ldF 10) := by decide
theorem test_decode_ldB : decode 0xF333 = .ok (.ldB 3) := by decide
theorem test_decode_stRegs : decode 0xF255 = .ok (.stRegs 2) := by decide
theorem test_decode_ldRegs : decode 0xFF65 = .ok (.ldRegs 15) := by decide

/-- One invalid word of each family that has any (30_encoding.md R64). -/
theorem test_decode_invalid :
    decode 0x0000 = .error (.invalid 0x0000) ∧ decode 0x00E1 = .error (.invalid 0x00E1) ∧
    decode 0x5FF1 = .error (.invalid 0x5FF1) ∧ decode 0x800F = .error (.invalid 0x800F) ∧
    decode 0x912F = .error (.invalid 0x912F) ∧ decode 0xEFA0 = .error (.invalid 0xEFA0) ∧
    decode 0xF00A = .error (.invalid 0xF00A) := by decide

/-- 20_memory.md R45: the byte at the lower address is the high half; one byte alone is no opcode. -/
theorem test_decodeBytes : decodeBytes [0x12, 0x4E, 0xFF] = .ok (.jp 0x24E, [0xFF]) ∧
    decodeBytes [0x12] = .error .tooShort := by decide

theorem test_decodeTableWord : decodeTableWord 16 0x124E = some (.jp 0x24E) ∧ decodeTableWord 16 0 = none := by decide

/-! ### One step each -/

/-- No key pressed, no tick, random byte 0. -/
def quiet : StepInput := ⟨Vector.replicate 16 false, 0, 0⟩

/-- Key 5 alone pressed. -/
def key5 : StepInput := ⟨(Vector.replicate 16 false).set 5 true, 0, 0⟩

/-- The reset state with an opcode at 0x200. -/
def start (w : Nat) : State := State.reset.withFetchWord 16 w

/-- The step answers a next state with the property. -/
def after (r : Host.Outcome State Fault Refusal) (p : State → Bool) : Bool :=
  match r with
  | .next t => p t
  | _ => false

/-- The step raises the error. -/
def raises (r : Host.Outcome State Fault Refusal) (f : Fault) : Bool :=
  match r with
  | .fault g => g == f
  | _ => false

/-- One step with no key, no tick. -/
def runs (s : State) (p : State → Bool) : Bool := after (hostStep quiet s) p

/-- A display with cell 0 alone set. -/
def oneCell : Display := toggleCell clearDisplay 0

theorem test_reset_glyph_F : (List.range' 0x4B 5).map State.reset.mem.read = [0xF0, 0x80, 0xF0, 0x80, 0x80] := by decide

theorem test_cls : runs { start 0x00E0 with display := oneCell } (fun t => t.display == clearDisplay && t.dirty) = true := by
  decide

theorem test_ret : runs (State.withFetchWord { State.reset with pc := 0xEEE, sp := 1, stack := State.reset.stack.set 1 0x200 }
    16 0x00EE) (fun t => t.pc == 0x202 && t.sp == 0) = true := by decide

theorem test_ret_empty : raises (hostStep quiet (start 0x00EE)) .stackUnderflow = true := by decide

theorem test_jp : runs (start 0x124E) (fun t => t.pc == 0x24E) = true := by decide

theorem test_call : runs { start 0x2EEE with sp := 14 } (fun t => t.pc == 0xEEE && t.sp == 15 && t.stack[15] == 0x200) =
    true := by decide

theorem test_call_full : raises (hostStep quiet { start 0x2300 with sp := 15 }) .stackOverflow = true := by decide

theorem test_seImm_taken : runs ((start 0x3014).setReg 0 0x14) (fun t => t.pc == 0x204) = true := by decide
theorem test_seImm_not : runs ((start 0x3013).setReg 0 0x14) (fun t => t.pc == 0x202) = true := by decide
theorem test_sneImm_not : runs ((start 0x4314).setReg 3 0x14) (fun t => t.pc == 0x202) = true := by decide
theorem test_sneImm_taken : runs ((start 0x4313).setReg 3 0x14) (fun t => t.pc == 0x204) = true := by decide
theorem test_seReg : runs (((start 0x5120).setReg 1 7).setReg 2 7) (fun t => t.pc == 0x204) = true := by decide
theorem test_sneReg : runs (((start 0x9120).setReg 1 7).setReg 2 8) (fun t => t.pc == 0x204) = true := by decide
theorem test_ldImm : runs (start 0x6F42) (fun t => t.v[15] == 0x42) = true := by decide
theorem test_addImm : runs ((start 0x7001).setReg 0 0xFF) (fun t => t.v[0] == 0 && t.v[15] == 0) = true := by decide
theorem test_ldReg : runs ((start 0x8FE0).setReg 14 0x42) (fun t => t.v[15] == 0x42) = true := by decide

theorem test_or : runs ((((start 0x8011).setReg 0 0x0F).setReg 1 0xF0).setReg 15 0x5A)
    (fun t => t.v[0] == 0xFF && t.v[15] == 0x5A) = true := by decide

theorem test_and : runs ((((start 0x8012).setReg 0 0x3C).setReg 1 0x0F).setReg 15 0x5A)
    (fun t => t.v[0] == 0x0C && t.v[15] == 0x5A) = true := by decide

theorem test_xor : runs ((((start 0x8013).setReg 0 0xFF).setReg 1 0x0F).setReg 15 0x5A)
    (fun t => t.v[0] == 0xF0 && t.v[15] == 0x5A) = true := by decide

theorem test_addReg : runs (((start 0x8014).setReg 0 0xFF).setReg 1 2) (fun t => t.v[0] == 1 && t.v[15] == 1) = true := by
  decide

theorem test_addReg_x15 : runs (((start 0x8FE4).setReg 14 1).setReg 15 0x10) (fun t => t.v[15] == 0x11) = true := by decide

theorem test_sub : runs ((start 0x8015).setReg 1 1) (fun t => t.v[0] == 0xFF && t.v[15] == 0) = true := by decide

theorem test_sub_equal : runs (((start 0x8015).setReg 0 1).setReg 1 1) (fun t => t.v[0] == 0 && t.v[15] == 1) = true := by
  decide

theorem test_shr : runs (((start 0x8126).setReg 1 0x0F).setReg 2 0xFF) (fun t => t.v[1] == 7 && t.v[15] == 1) = true := by
  decide

theorem test_subn : runs (((start 0x8017).setReg 0 5).setReg 1 3) (fun t => t.v[0] == 0xFE && t.v[15] == 0) = true := by
  decide

theorem test_shl : runs ((start 0x800E).setReg 0 0x81) (fun t => t.v[0] == 2 && t.v[15] == 1) = true := by decide
theorem test_ldI : runs (start 0xAFFF) (fun t => t.i == 0xFFF) = true := by decide
theorem test_addI_past_fff : runs ((start 0xF01E).setReg 0 1 |>.setI 0xFFF) (fun t => t.i == 0x1000 && t.v[15] == 0) =
    true := by decide
theorem test_addI_wrap : runs ((start 0xF01E).setReg 0 1 |>.setI 0xFFFF) (fun t => t.i == 0) = true := by decide
theorem test_jpV0 : runs ((start 0xBFFF).setReg 0 0xFF) (fun t => t.pc == 0x10FE) = true := by decide

theorem test_jpV0_uses_V0 : runs (((start 0xB123).setReg 0 1).setReg 1 0x50) (fun t => t.pc == 0x124) = true := by decide

theorem test_rnd : after (hostStep ⟨quiet.keys, 0, 0xA7⟩ (start 0xC30F)) (fun t => t.v[3] == 7) = true := by decide

/-- Glyph 0 at (0, 0): columns 0 to 3 of rows 0 and 4, columns 0 and 3 of the rows between. -/
theorem test_drw_glyph_0 : runs (start 0xD015) (fun t => t.dirty && t.v[15] == 0 &&
    t.display.toList.take 6 == [0xF, 0x9, 0x9, 0x9, 0xF, 0]) = true := by decide

/-- A sprite at the right edge of the last row, over a set cell: each axis wraps on its own, and the set cell collides. -/
theorem test_drw_wrap : runs { ((start 0xD012).setReg 0 0x3F).setReg 1 0x1F with
      i := 0x300, display := oneCell, mem := Memory.writeList [] 0x200 [0xD0, 0x12] ++ [(0x300, 0xC0), (0x301, 0x40)] }
    (fun t => t.v[15] == 1 && t.display[0] == 0 && t.display[31] == 0x8000000000000001) = true := by decide

theorem test_skp : after (hostStep key5 ((start 0xE19E).setReg 1 5)) (fun t => t.pc == 0x204) = true := by decide

theorem test_skp_over_15 : raises (hostStep key5 ((start 0xE19E).setReg 1 16)) (.undefinedOperand 0xE19E 0x200) = true := by decide

theorem test_sknp : after (hostStep key5 ((start 0xE1A1).setReg 1 5)) (fun t => t.pc == 0x202) = true := by decide

theorem test_ldVxDt : after (hostStep ⟨quiet.keys, 1, 0⟩ { start 0xF507 with dt := 60 })
    (fun t => t.v[5] == 0x3C && t.dt == 59) = true := by decide

theorem test_ldDtVx : after (hostStep ⟨quiet.keys, 1, 0⟩ ((start 0xF515).setReg 5 10)) (fun t => t.dt == 9) = true := by
  decide

theorem test_ldStVx_beep : after (hostStep ⟨quiet.keys, 1, 0⟩ ((start 0xF218).setReg 2 1)) (fun t => t.st == 0 && t.beep) =
    true := by decide

theorem test_ldStVx_stop : after (hostStep ⟨quiet.keys, 1, 0⟩ { start 0xF018 with st := 1 })
    (fun t => t.st == 0 && !t.beep) = true := by decide

theorem test_ldF : runs ((start 0xF029).setReg 0 10) (fun t => t.i == 0x32) = true := by decide

theorem test_ldF_16 : raises (hostStep quiet ((start 0xF029).setReg 0 16)) (.undefinedOperand 0xF029 0x200) = true := by decide

theorem test_ldB : runs (((start 0xF033).setReg 0 0x9D).setI 0x300)
    (fun t => (List.range' 0x300 3).map t.mem.read == [1, 5, 7] && t.i == 0x300) = true := by decide

theorem test_ldB_over : raises (hostStep quiet (((start 0xF033).setReg 0 0x7B).setI 0xFFE)) (.memoryFault 0x1000) = true := by decide

theorem test_stRegs : runs ((((start 0xF255).setReg 0 1).setReg 1 2).setReg 2 3 |>.setI 0x300)
    (fun t => (List.range' 0x300 4).map t.mem.read == [1, 2, 3, 0] && t.i == 0x300) = true := by decide

theorem test_stRegs_over : raises (hostStep quiet ((start 0xFF55).setI 0xFF1)) (.memoryFault 0x1000) = true := by decide

theorem test_ldRegs : runs (start 0xF165) (fun t => t.v[0] == 0xF0 && t.v[1] == 0x90 && t.v[2] == 0) = true := by decide

theorem test_ldRegs_over : raises (hostStep quiet ((start 0xF365).setI 0xFFE)) (.memoryFault 0x1000) = true := by decide

theorem test_invalid : raises (hostStep quiet State.reset) (.invalidOpcode 0 0x200) = true := by decide

theorem test_fetch_past_end : raises (hostStep quiet { State.reset with pc := 0x1002 }) (.memoryFault 0x1002) = true := by decide

/-- A host loads `60 42` and reads it back (20_memory.md R55, section 8 round trip). -/
theorem test_loadProgram : after (loadProgram [0x60, 0x42] State.reset)
    (fun t => (List.range' 0x1FF 4).map t.mem.read == [0, 0x60, 0x42, 0]) = true := by decide

/-! ### Witnesses: for each statement with hypotheses, a state and operands that meet them -/

theorem witness_EncodeOfDecodeIsTheWord : decode 0x8AB6 = .ok (.shr 10 11) := by decide

theorem witness_DecodeAcceptsExactlyTheTableRows :
    (∃ row ∈ opcodeRows, (0xFF65 : Word) &&& row.1 = row.2) ∧ ∀ row ∈ opcodeRows, (0xFF66 : Word) &&& row.1 ≠ row.2 := by
  simp [opcodeRows, familyRows, nibbleRows, byteRows]

/-- `1234` in the last two bytes of memory. -/
def lastWord : State := { State.reset with pc := 0xFFE, mem := Memory.writeList [] 0xFFE [0x12, 0x34] }

theorem witness_StepRunsTheDecodedInstruction : lastWord.pc.toNat + 1 < 4096 ∧
    decode (opcodeOf (lastWord.mem.read lastWord.pc.toNat) (lastWord.mem.read (lastWord.pc.toNat + 1))) =
      .ok (.jp 0x234) := by decide

theorem witness_FetchIsBigEndian : lastWord.pc.toNat + 1 < 4096 := by decide

theorem witness_FetchPastMemoryFaults : 4096 ≤ ({ State.reset with pc := 0xFFF } : State).pc.toNat + 1 ∧
    4096 ≤ ({ State.reset with pc := 0xFFFF } : State).pc.toNat + 1 := by decide

theorem witness_InvalidWordRaisesInvalidOpcode : fetchOpcode State.reset = .ok 0 ∧
    ∀ row ∈ opcodeRows, (0 : Word) &&& row.1 ≠ row.2 :=
  ⟨rfl, by simp [opcodeRows, familyRows, nibbleRows, byteRows]⟩

theorem witness_ExecCompletesOrRaisesTheTabledError :
    Claims.errorOf { State.reset with sp := 15 } (.call 0) = some .stackOverflow ∧
    Claims.errorOf { State.reset with sp := 14 } (.call 0) = none ∧
    Claims.errorOf { State.reset with i := 0xFFE } (.ldB 0) = some (.memoryFault 4096) ∧
    Claims.errorOf { State.reset with i := 0xFFD } (.ldB 0) = none ∧
    Claims.errorOf { State.reset with i := 0xFFFF } (.drw 0 0 0) = none ∧
    Claims.errorOf { State.reset with i := 0xFFF } (.drw 0 0 2) = some (.memoryFault 4096) := by decide

theorem witness_ErrorsNameTheFetchedWord : step State.reset = .fault (.invalidOpcode 0 0x200) ∧
    step ((start 0xF029).setReg 0 16) = .fault (.undefinedOperand 0xF029 0x200) := ⟨rfl, rfl⟩

theorem witness_StepErrorsDependOnNoInput : step (start 0x00EE) = .fault .stackUnderflow := rfl

theorem witness_TimerStageEndsTheStep : fetchOpcode (start 0x124E) = .ok 0x124E ∧ decode 0x124E = .ok (.jp 0x24E) ∧
    ∃ t, exec (.jp 0x24E) (start 0x124E).latchKeys = .next t := ⟨rfl, rfl, _, rfl⟩

theorem witness_HostStepLeavesItsSnapshot : ∃ t, hostStep key5 (start 0x124E) = .next t := ⟨_, rfl⟩

theorem witness_KeySkipsSeeTheirOwnSnapshot :
    (fetchOpcode (start 0xE19E) = .ok 0xE19E ∧ (start 0xE19E).v[(1 : Reg)].toNat = (0 : Fin 16).val ∧
      decode 0xE19E = .ok (.skp 1)) ∧
    (fetchOpcode ((start 0xE1A1).setReg 1 15) = .ok 0xE1A1 ∧
      ((start 0xE1A1).setReg 1 15).v[(1 : Reg)].toNat = (15 : Fin 16).val ∧ decode 0xE1A1 = .ok (.sknp 1)) := by decide

theorem witness_TimerInstructionsMeetTheirStepsTicks :
    (fetchOpcode (start 0xF507) = .ok 0xF507 ∧ decode 0xF507 = .ok (.ldVxDt 5)) ∧
    (fetchOpcode (start 0xF515) = .ok 0xF515 ∧ decode 0xF515 = .ok (.ldDtVx 5)) ∧
    fetchOpcode (start 0xF218) = .ok 0xF218 ∧ decode 0xF218 = .ok (.ldStVx 2) := by decide

/-- A call from the reset state. -/
theorem witness_StepKeepsTheInvariant : (start 0x2EEE).Inv ∧ ∃ t, step (start 0x2EEE) = .next t :=
  ⟨⟨by decide, by decide, by decide⟩, _, rfl⟩

theorem witness_ReadGivesTheLastWrite : Memory.wf [(0x200, 0x12), (0xFFF, 1)] = true := by decide

theorem witness_MemoryFormIsCanonical : Memory.wf [(0xFFF, 1)] = true ∧
    ∀ a, Memory.read [(0xFFF, 1)] a = Memory.read (Memory.write [] 0xFFF 1) a := ⟨by decide, fun _ => rfl⟩

/-- Registers 0 to 15 holding 1 to 16, and an index. -/
def counted (i : Word) : State := { State.reset with v := Vector.ofFn fun k => BitVec.ofNat 8 (k.val + 1), i := i }

theorem witness_StoredRegistersAreFetchedAsCode : (counted 0xFF0).mem.wf = true ∧
    (∃ t, exec (.stRegs 15) (counted 0xFF0) = .next t) ∧ (15 : Reg).val = (14 : Reg).val + 1 ∧ (15 : Reg) ≤ 15 ∧
    (0xFFE : Word).toNat = (counted 0xFF0).i.toNat + (14 : Reg).val := ⟨rfl, ⟨_, rfl⟩, rfl, le_rfl, rfl⟩

theorem witness_LoadProgramCopiesTheImage : State.reset.mem.wf = true ∧
    4096 < (List.replicate 3585 (7 : Byte)).length + 0x200 ∧ (List.replicate 3584 (7 : Byte)).length + 0x200 ≤ 4096 := by
  simp only [List.length_replicate]
  decide

theorem witness_DrawTogglesTheLitCells : (0 : Fin 16).val = 0 ∧ (0xFF1 : Word).toNat + (15 : Fin 16).val ≤ 4096 := by decide

theorem witness_DoubleDrawRestoresTheDisplay : (0 : Reg) ≠ 15 ∧ (14 : Reg) ≠ 15 ∧
    ∃ t u, exec (.drw 0 14 5) State.reset = .next t ∧ exec (.drw 0 14 5) t = .next u :=
  ⟨by decide, by decide, _, _, rfl, rfl⟩

theorem witness_RetPopsTheStack : State.reset.sp.val = 0 ∧ 0 < ({ State.reset with sp := 1 } : State).sp.val := by decide

theorem witness_CallPushesItsOwnAddress : ({ State.reset with sp := 15 } : State).sp.val = 15 ∧
    ({ State.reset with sp := 14 } : State).sp.val < 15 := by decide

theorem witness_NextPcIsByClass : lastWord.Inv ∧ lastWord.pc.toNat ≤ 4094 ∧ ∃ t, exec (.seImm 0 0) lastWord = .next t :=
  ⟨⟨by decide, by decide, by decide⟩, by decide, _, rfl⟩

/-- A return needs a live entry: the largest the invariant allows. -/
theorem witness_NextPcIsByClass_ret :
    State.Inv { State.reset with sp := 1, stack := State.reset.stack.set 1 4094 } ∧
    ∃ t, exec .ret { State.reset with sp := 1, stack := State.reset.stack.set 1 4094 } = .next t :=
  ⟨⟨by decide, by decide, by decide⟩, _, rfl⟩

theorem witness_OnlyRndDependsOnTheRandomByte : ∀ w x nn, fetchOpcode (start 0x124E) = .ok w → decode w ≠ .ok (.rnd x nn) := by
  intro w x nn h
  have hw : fetchOpcode (start 0x124E) = .ok 0x124E := rfl
  rw [hw] at h
  cases h
  rw [test_decode_jp]
  simp

theorem witness_LdFPointsAtTheGlyph : (State.reset.setReg 0 15).v[(0 : Reg)].toNat ≤ 15 ∧
    15 < (State.reset.setReg 0 16).v[(0 : Reg)].toNat := by decide

theorem witness_LdBStoresTheDigits : State.reset.mem.wf = true ∧ (State.reset.setI 0xFFD).i.toNat + 2 < 4096 ∧
    4096 ≤ (State.reset.setI 0xFFE).i.toNat + 2 := by decide

theorem witness_StRegsStoresV0ToVx : State.reset.mem.wf = true ∧
    (counted 0xFF0).i.toNat + (15 : Reg).val < 4096 ∧ 4096 ≤ (counted 0xFF1).i.toNat + (15 : Reg).val ∧
    (0 : Reg) ≤ 15 := by decide

theorem witness_LdRegsLoadsV0ToVx : (counted 0xFFF).i.toNat + (0 : Reg).val < 4096 ∧
    4096 ≤ (counted 0x1000).i.toNat + (0 : Reg).val ∧ (0 : Reg) ≤ 0 ∧ (0 : Reg) < 1 := by decide

theorem witness_KeySkips : (State.reset.setReg 1 15).v[(1 : Reg)].toNat = (15 : Fin 16).val ∧
    15 < (State.reset.setReg 1 16).v[(1 : Reg)].toNat := by decide

theorem witness_RegistersKeepUnlessNamed : (∃ t, exec (.ldRegs 14) State.reset = .next t) ∧
    Claims.writesReg 15 (.ldRegs 14) = false := ⟨⟨_, rfl⟩, rfl⟩

theorem witness_SpecialStateKeepsUnlessNamed : (∃ t, exec (.addReg 0 1) State.reset = .next t) ∧
    Claims.writesIndex (.addReg 0 1) = false ∧ Claims.writesSp (.addReg 0 1) = false ∧
    Claims.writesStack (.addReg 0 1) = false ∧ Claims.writesDelay (.addReg 0 1) = false ∧
    Claims.writesSound (.addReg 0 1) = false ∧ Claims.writesDisplay (.addReg 0 1) = false :=
  ⟨⟨_, rfl⟩, rfl, rfl, rfl, rfl, rfl, rfl⟩

theorem witness_MemoryKeepsUnlessStoredTo : (counted 0x300).mem.wf = true ∧
    (∃ t, exec (.stRegs 2) (counted 0x300) = .next t) ∧ Claims.storesTo (counted 0x300) 0x2FF (.stRegs 2) = false ∧
    Claims.storesTo (counted 0x300) 0x303 (.stRegs 2) = false := ⟨rfl, ⟨_, rfl⟩, rfl, rfl⟩

theorem witness_StackEntryZeroIsNeverWritten : ∃ t, step (start 0x2EEE) = .next t := ⟨_, rfl⟩

theorem witness_StaleStackEntriesAreUnobservable :
    SameButStaleStack { start 0x00EE with sp := 1 }
      { start 0x00EE with sp := 1, stack := (State.reset.stack.set 0 7).set 2 9 } := by
  refine ⟨rfl, ?_⟩
  decide

end Sys2Proof.Tests
end

section
/-! PROOF. 10_state.md: the reset value of `PC` (R24) and `flush` (R38). -/

namespace Sys2Proof.Machine

@[simp] theorem State.reset_pc : State.reset.pc = 0x200 := rfl

@[simp] theorem flush_fst (s : State) : (flush s).1 = s.dirty := rfl

@[simp] theorem flush_snd (s : State) : (flush s).2 = { s with dirty := false } := rfl

/-- Settles O19. -/
theorem resetPcIsTheProgramBase : Obligations.ResetPcIsTheProgramBase :=
  State.reset_pc

/-- Settles O28, one equation for each component of the answer. -/
theorem flushReturnsAndClearsDirty : Obligations.FlushReturnsAndClearsDirty :=
  fun s => ⟨flush_fst s, flush_snd s⟩

end Sys2Proof.Machine
end

section
/-! PROOF. 40_display.md: what `00E0` does (R73). -/

namespace Sys2Proof.Machine

/-- `00E0` in full: it completes on every state. -/
theorem exec_cls (s : State) : exec .cls s = .next { s with display := clearDisplay, dirty := true }.advance := rfl

theorem readCell_eq_false_of_display_eq_clearDisplay {s : State} (h : s.display = clearDisplay)
    (column : Fin 64) (row : Fin 32) : readCell s column row = false := by
  rw [readCell, h, cell_clearDisplay]

/-- Settles O30, from the state `exec_cls` gives: its display is `clearDisplay`, and its frame is that state's own
form. -/
theorem clsClearsEveryCell : Obligations.ClsClearsEveryCell :=
  fun s => ⟨_, exec_cls s, readCell_eq_false_of_display_eq_clearDisplay rfl, rfl⟩

end Sys2Proof.Machine
end

section
/-! PROOF. 41_control_flow.md: the jump `1NNN` (R78) and the four skips on a comparison (R80 to R83). -/

namespace Sys2Proof.Machine

/-! ### What each instruction does: it completes on every state -/

theorem exec_jp (nnn : Imm12) (s : State) : exec (.jp nnn) s = .next (s.jumpTo (zextImm nnn)) := rfl

theorem exec_seImm (x : Reg) (nn : Byte) (s : State) :
    exec (.seImm x nn) s = .next (s.skipIf (s.reg x == nn)) := rfl

theorem exec_sneImm (x : Reg) (nn : Byte) (s : State) :
    exec (.sneImm x nn) s = .next (s.skipIf (s.reg x != nn)) := rfl

theorem exec_seReg (x y : Reg) (s : State) :
    exec (.seReg x y) s = .next (s.skipIf (s.reg x == s.reg y)) := rfl

theorem exec_sneReg (x y : Reg) (s : State) :
    exec (.sneReg x y) s = .next (s.skipIf (s.reg x != s.reg y)) := rfl

/-! ### A skip on a comparison of two bytes -/

theorem State.skipIf_beq (s : State) (a b : Byte) :
    s.skipIf (a == b) = { s with pc := s.pc + if a = b then 4 else 2 } := by
  simp only [State.skipIf, beq_iff_eq]

theorem State.skipIf_bne (s : State) (a b : Byte) :
    s.skipIf (a != b) = { s with pc := s.pc + if a = b then 2 else 4 } := by
  simp only [State.skipIf, bne_iff_ne, ite_not, ne_eq]

/-- Settles O34: the state `exec_jp` gives has the jump's frame by `State.jumpTo`. -/
theorem jpSetsPc : Obligations.JpSetsPc :=
  fun s nnn => exec_jp nnn s

/-- Settles O36: each skip compares two bytes, for equality (3XNN, 5XY0) or for inequality (4XNN, 9XY0). -/
theorem skipsOnEquality : Obligations.SkipsOnEquality := by
  intro s x y nn
  refine ⟨?seImm, ?sneImm, ?seReg, ?sneReg⟩
  case seImm => rw [exec_seImm, State.skipIf_beq, State.reg]
  case sneImm => rw [exec_sneImm, State.skipIf_bne, State.reg]
  case seReg => rw [exec_seReg, State.skipIf_beq, State.reg, State.reg]
  case sneReg => rw [exec_sneReg, State.skipIf_bne, State.reg, State.reg]

end Sys2Proof.Machine
end

section
/-! PROOF. 42_alu.md: the loads, the wrapping add of an immediate and the logical operations (R88 to R93). Each writes one
register and is sequential. -/

namespace Sys2Proof.Machine

/-! ### What each instruction does: it completes on every state -/

theorem exec_ldImm (x : Reg) (nn : Byte) (s : State) : exec (.ldImm x nn) s = .next (s.setReg x nn).advance := rfl

theorem exec_addImm (x : Reg) (nn : Byte) (s : State) :
    exec (.addImm x nn) s = .next (s.setReg x (s.reg x + nn)).advance := rfl

theorem exec_ldReg (x y : Reg) (s : State) : exec (.ldReg x y) s = .next (s.setReg x (s.reg y)).advance := rfl

theorem exec_orReg (x y : Reg) (s : State) :
    exec (.orReg x y) s = .next (s.setReg x (s.reg x ||| s.reg y)).advance := rfl

theorem exec_andReg (x y : Reg) (s : State) :
    exec (.andReg x y) s = .next (s.setReg x (s.reg x &&& s.reg y)).advance := rfl

theorem exec_xorReg (x y : Reg) (s : State) :
    exec (.xorReg x y) s = .next (s.setReg x (s.reg x ^^^ s.reg y)).advance := rfl

/-- A sequential instruction that writes one register: its frame is everything but `V` and `PC`. -/
theorem State.advance_setReg (s : State) (x : Reg) (b : Byte) :
    (s.setReg x b).advance = { s with v := s.v.set x b, pc := s.pc + 2 } := rfl

/-- Settles O39: the byte 7XNN writes is the sum in 8 bits, which is the sum modulo 256. -/
theorem immediateLoadAndAdd : Obligations.ImmediateLoadAndAdd := by
  intro s x nn
  refine ⟨?ldImm, s.reg x + nn, ?sum, ?addImm⟩
  case ldImm => rw [exec_ldImm, State.advance_setReg]
  case sum => rw [BitVec.toNat_add, State.reg]
  case addImm => rw [exec_addImm, State.advance_setReg]

/-- Settles O40: each instruction writes one register, so the four share the frame of `State.advance_setReg`. -/
theorem copyAndLogicWriteTheDestination : Obligations.CopyAndLogicWriteTheDestination := by
  intro s x y
  refine ⟨?ldReg, ?orReg, ?andReg, ?xorReg⟩
  case ldReg => rw [exec_ldReg, State.advance_setReg, State.reg]
  case orReg => rw [exec_orReg, State.advance_setReg, State.reg, State.reg]
  case andReg => rw [exec_andReg, State.advance_setReg, State.reg, State.reg]
  case xorReg => rw [exec_xorReg, State.advance_setReg, State.reg, State.reg]

end Sys2Proof.Machine
end

section
/-! PROOF. 43_index_memory.md: the load of the index register `ANNN` (R101). -/

namespace Sys2Proof.Machine

/-- 43_index_memory.md R101: ANNN completes on every state. -/
theorem exec_ldI (nnn : Imm12) (s : State) : exec (.ldI nnn) s = .next (s.setI (zextImm nnn)).advance := rfl

/-- A sequential instruction that writes the index register: its frame is everything but `I` and `PC`. -/
theorem State.advance_setI (s : State) (w : Word) : (s.setI w).advance = { s with i := w, pc := s.pc + 2 } := rfl

/-- Settles O46: the state `exec_ldI` gives has the frame of `State.advance_setI`, with `nnn` zero-extended in `I`. -/
theorem ldISetsIndex : Obligations.LdISetsIndex := by
  intro s nnn
  rw [exec_ldI, State.advance_setI, zextImm]

end Sys2Proof.Machine
end

section
/-! PROOF. 44_input_timers.md: the moves between `V[x]` and the timers, `FX07`, `FX15` and `FX18` (R110 to R112). -/

namespace Sys2Proof.Machine

/-! ### What each instruction does: it completes on every state -/

theorem exec_ldVxDt (x : Reg) (s : State) : exec (.ldVxDt x) s = .next (s.setReg x s.dt).advance := rfl

theorem exec_ldDtVx (x : Reg) (s : State) : exec (.ldDtVx x) s = .next { s with dt := s.reg x }.advance := rfl

theorem exec_ldStVx (x : Reg) (s : State) : exec (.ldStVx x) s = .next { s with st := s.reg x }.advance := rfl

/-- Settles O53: FX07 writes one register, so its frame is that of `State.advance_setReg`; FX15 and FX18 each write one timer
and are sequential. -/
theorem timerMoves : Obligations.TimerMoves := by
  intro s x
  refine ⟨?ldVxDt, ?ldDtVx, ?ldStVx⟩
  case ldVxDt => rw [exec_ldVxDt, State.advance_setReg]
  case ldDtVx => rw [exec_ldDtVx, State.advance, State.reg]
  case ldStVx => rw [exec_ldStVx, State.advance, State.reg]

end Sys2Proof.Machine
end

section
/-! PROOF. 30_encoding.md: the decoder and the encoder are inverse to each other, and the rows of the opcode table say
which words the decoder accepts (R58 to R67). -/

namespace Sys2Proof

/-! ### Decoding an encoding -/

/-- The fields of an instruction's word are its selectors and operands, so the decoder takes the instruction's own arm. -/
theorem decode_encode (i : Instr) : decode (encode i) = .ok i := by
  cases i with
  | cls | ret => rfl
  | _ => simp [encode, wordXS, decode, decodeFamily8, decodeFamilyE, decodeFamilyF, ifSelector0]

theorem decodeBytes_encodeBytes (i : Instr) (rest : List Byte) :
    decodeBytes (encodeBytes i ++ rest) = .ok (i, rest) := by
  rw [encodeBytes, decodeBytes_wordBytes, decode_encode]

/-- Settles O1, from the word by `decode_encode`, and from bytes because a word's two bytes make it again. -/
theorem decodeOfEncodeIsTheInstruction : Obligations.DecodeOfEncodeIsTheInstruction :=
  fun i rest => ⟨decode_encode i, decodeBytes_encodeBytes i rest⟩

/-! ### Encoding what was decoded: in each format, a word is its digits and its operand fields -/

section Rebuild

variable {w : Word} {f : BitVec 4}

theorem wordAddr_fields (hf : (fieldF w).toNat = f.toNat) : wordAddr f (fieldNNN w) = w :=
  BitVec.eq_of_toNat_eq (by rw [toNat_wordAddr, ← hf, toNat_fieldF, toNat_fieldNNN]; omega)

theorem wordXNN_fields (hf : (fieldF w).toNat = f.toNat) : wordXNN f (fieldX w) (fieldNN w) = w :=
  BitVec.eq_of_toNat_eq (by rw [toNat_wordXNN, ← hf, toNat_fieldF, val_fieldX, toNat_fieldNN]; omega)

theorem wordXS_fields {s : Byte} (hf : (fieldF w).toNat = f.toNat) (hs : (fieldNN w).toNat = s.toNat) :
    wordXS f (fieldX w) s = w := by
  rw [wordXS, ← BitVec.eq_of_toNat_eq hs, wordXNN_fields hf]

theorem wordXYN_fields {n : BitVec 4} (hf : (fieldF w).toNat = f.toNat) (hn : (fieldN w).val = n.toNat) :
    wordXYN f (fieldX w) (fieldY w) n = w :=
  BitVec.eq_of_toNat_eq (by
    rw [toNat_wordXYN, ← hf, ← hn, toNat_fieldF, val_fieldX, val_fieldY, val_fieldN]; omega)

variable {i : Instr}

theorem encode_of_decodeFamily0 (h : decodeFamily0 w = .ok i) : encode i = w := by
  unfold decodeFamily0 at h
  split at h
  · cases h
    exact ‹w = 0x00E0›.symm
  · split at h
    · cases h
      exact ‹w = 0x00EE›.symm
    · cases h

theorem encode_of_decodeFamily8 (hf : (fieldF w).toNat = 8) (h : decodeFamily8 w = .ok i) : encode i = w := by
  unfold decodeFamily8 at h
  split at h
  case h_10 => cases h
  all_goals
    cases h
    exact wordXYN_fields hf ‹_›

theorem encode_of_decodeFamilyE (hf : (fieldF w).toNat = 14) (h : decodeFamilyE w = .ok i) : encode i = w := by
  unfold decodeFamilyE at h
  split at h
  case h_3 => cases h
  all_goals
    cases h
    exact wordXS_fields hf ‹_›

theorem encode_of_decodeFamilyF (hf : (fieldF w).toNat = 15) (h : decodeFamilyF w = .ok i) : encode i = w := by
  unfold decodeFamilyF at h
  split at h
  case h_9 => cases h
  all_goals
    cases h
    exact wordXS_fields hf ‹_›

theorem ifSelector0_ok {j : Instr} (h : ifSelector0 w j = .ok i) : (fieldN w).val = 0 ∧ j = i := by
  unfold ifSelector0 at h
  split at h
  · exact ⟨‹_›, Except.ok.inj h⟩
  · cases h

theorem encode_of_decode (h : decode w = .ok i) : encode i = w := by
  unfold decode at h
  split at h
  case h_1 => exact encode_of_decodeFamily0 h
  case h_9 hf => exact encode_of_decodeFamily8 hf h
  case h_15 hf => exact encode_of_decodeFamilyE hf h
  case h_16 hf => exact encode_of_decodeFamilyF hf h
  case h_17 => cases h
  case h_6 hf | h_10 hf =>
    obtain ⟨hn, rfl⟩ := ifSelector0_ok h
    exact wordXYN_fields hf hn
  case h_14 hf =>
    cases h
    exact wordXYN_fields hf rfl
  case h_2 hf | h_3 hf | h_11 hf | h_12 hf =>
    cases h
    exact wordAddr_fields hf
  case h_4 hf | h_5 hf | h_7 hf | h_8 hf | h_13 hf =>
    cases h
    exact wordXNN_fields hf

end Rebuild

/-- Settles O2, by the decoder's families: each arm reads the fields its own format puts back. -/
theorem encodeOfDecodeIsTheWord : Obligations.EncodeOfDecodeIsTheWord :=
  fun _ _ => encode_of_decode

/-! ### The opcode table -/

/-- Every instruction has the facts of its row (`Laws.Fields`, one lemma per instruction). -/
theorem fieldsStatement : ∀ i : Instr, Laws.Fields.Statement i
  | .cls => Laws.Fields.cls
  | .ret => Laws.Fields.ret
  | .jp a => Laws.Fields.jp a
  | .call a => Laws.Fields.call a
  | .seImm x b => Laws.Fields.seImm x b
  | .sneImm x b => Laws.Fields.sneImm x b
  | .seReg x y => Laws.Fields.seReg x y
  | .ldImm x b => Laws.Fields.ldImm x b
  | .addImm x b => Laws.Fields.addImm x b
  | .ldReg x y => Laws.Fields.ldReg x y
  | .orReg x y => Laws.Fields.orReg x y
  | .andReg x y => Laws.Fields.andReg x y
  | .xorReg x y => Laws.Fields.xorReg x y
  | .addReg x y => Laws.Fields.addReg x y
  | .sub x y => Laws.Fields.sub x y
  | .shr x y => Laws.Fields.shr x y
  | .subn x y => Laws.Fields.subn x y
  | .shl x y => Laws.Fields.shl x y
  | .sneReg x y => Laws.Fields.sneReg x y
  | .ldI a => Laws.Fields.ldI a
  | .jpV0 a => Laws.Fields.jpV0 a
  | .rnd x b => Laws.Fields.rnd x b
  | .drw x y n => Laws.Fields.drw x y n
  | .skp x => Laws.Fields.skp x
  | .sknp x => Laws.Fields.sknp x
  | .ldVxDt x => Laws.Fields.ldVxDt x
  | .ldDtVx x => Laws.Fields.ldDtVx x
  | .ldStVx x => Laws.Fields.ldStVx x
  | .addI x => Laws.Fields.addI x
  | .ldF x => Laws.Fields.ldF x
  | .ldB x => Laws.Fields.ldB x
  | .stRegs x => Laws.Fields.stRegs x
  | .ldRegs x => Laws.Fields.ldRegs x

theorem encode_and_mask (i : Instr) : encode i &&& (Claims.rowOf i).1 = (Claims.rowOf i).2 := by
  obtain ⟨-, hmatch, -⟩ := fieldsStatement i
  exact beq_iff_eq.1 hmatch

theorem rowOf_mem (i : Instr) : Claims.rowOf i ∈ opcodeRows := by
  obtain ⟨-, -, hmem⟩ := fieldsStatement i
  exact hmem

/-- A word holds a field's value in the field's bits (30_encoding.md R58). -/
def HoldsField (w : Word) (f : FieldValue) : Prop := w.toNat / 2 ^ f.lo % 2 ^ (f.hi + 1 - f.lo) = f.value

theorem holdsField_x (w : Word) (x : Reg) : HoldsField w (.x x) ↔ fieldX w = x := by
  rw [Fin.ext_iff, val_fieldX]
  rfl

theorem holdsField_y (w : Word) (y : Reg) : HoldsField w (.y y) ↔ fieldY w = y := by
  rw [Fin.ext_iff, val_fieldY]
  rfl

theorem holdsField_n (w : Word) (n : Fin 16) : HoldsField w (.n n) ↔ fieldN w = n := by
  rw [Fin.ext_iff, val_fieldN, HoldsField, FieldValue.n, Nat.pow_zero, Nat.div_one]
  rfl

theorem holdsField_nn (w : Word) (nn : Byte) : HoldsField w (.nn nn) ↔ fieldNN w = nn := by
  rw [← BitVec.toNat_inj, toNat_fieldNN, HoldsField, FieldValue.nn, Nat.pow_zero, Nat.div_one]
  rfl

theorem holdsField_nnn (w : Word) (a : Imm12) : HoldsField w (.nnn a) ↔ fieldNNN w = a := by
  rw [← BitVec.toNat_inj, toNat_fieldNNN, HoldsField, FieldValue.nnn, Nat.pow_zero, Nat.div_one]
  rfl

/-- The fields of an instruction's word are its operands, in each format. -/
theorem encode_holdsField (i : Instr) : ∀ f ∈ i.fields, HoldsField (encode i) f := by
  cases i with
  | cls | ret => exact fun _ hf => absurd hf List.not_mem_nil
  | _ =>
    simp [Instr.fields, encode, wordXS, holdsField_x, holdsField_y, holdsField_n, holdsField_nn, holdsField_nnn]

/-- Settles O60, the pattern from `Laws.Fields` and the operands from the fields of each format. -/
theorem opcodeHasItsRowsPatternAndFields : Obligations.OpcodeHasItsRowsPatternAndFields :=
  fun i => ⟨encode_and_mask i, encode_holdsField i⟩

/-- Settles O4: the matches of two rows differ in a bit that both masks keep, so no word has both patterns. -/
theorem opcodeRowsAreDisjoint : Obligations.OpcodeRowsAreDisjoint := by
  refine ⟨rfl, ?_⟩
  have hdiffer : opcodeRows.Pairwise fun a b => a.2 &&& b.1 ≠ b.2 &&& a.1 := by decide
  refine hdiffer.imp fun hne w ⟨ha, hb⟩ => hne ?_
  rw [← ha, ← hb, BitVec.and_assoc, BitVec.and_assoc, BitVec.and_comm (x := Prod.fst _)]

/-! ### A word with a row's pattern has the row's digits -/

section Patterns

variable {w m : Word}

theorem fieldF_of_family (h : w &&& 0xF000 = m) : (fieldF w).toNat = m.toNat / 4096 % 16 := by
  rw [← wordXNN_fields (w := w) rfl, Laws.Fields.and_wordXNN] at h
  rw [← toNat_fieldF, ← h, fieldF_wordXNN]

theorem digits_of_nibble (h : w &&& 0xF00F = m) :
    (fieldF w).toNat = m.toNat / 4096 % 16 ∧ (fieldN w).val = m.toNat % 16 := by
  rw [← wordXYN_fields (w := w) (n := BitVec.ofFin (w := 4) (fieldN w)) rfl rfl, Laws.Fields.and_wordXYN] at h
  rw [← toNat_fieldF, ← val_fieldN, ← h, fieldF_wordXYN, fieldN_wordXYN]
  exact ⟨rfl, rfl⟩

theorem digits_of_byte (h : w &&& 0xF0FF = m) :
    (fieldF w).toNat = m.toNat / 4096 % 16 ∧ (fieldNN w).toNat = m.toNat % 256 := by
  rw [← wordXS_fields (w := w) rfl rfl, Laws.Fields.and_wordXS, wordXS] at h
  rw [← toNat_fieldF, ← toNat_fieldNN, ← h, fieldF_wordXNN, fieldNN_wordXNN]
  exact ⟨rfl, rfl⟩

end Patterns

theorem decode_ok_of_fixedRow {w : Word} {row : Word × Word} (hrow : row ∈ [(0xFFFF, 0x00E0), (0xFFFF, 0x00EE)])
    (h : w &&& row.1 = row.2) : ∃ i, decode w = .ok i := by
  have hmask : row.1 = BitVec.allOnes 16 := by fin_cases hrow <;> rfl
  rw [hmask, BitVec.and_allOnes] at h
  subst h
  fin_cases hrow <;> exact ⟨_, rfl⟩

theorem decode_ok_of_familyRow {w : Word} {row : Word × Word} (hrow : row ∈ familyRows) (h : w &&& row.1 = row.2) :
    ∃ i, decode w = .ok i := by
  fin_cases hrow <;> simp [decode, fieldF_of_family h]

theorem decode_ok_of_nibbleRow {w : Word} {row : Word × Word} (hrow : row ∈ nibbleRows) (h : w &&& row.1 = row.2) :
    ∃ i, decode w = .ok i := by
  fin_cases hrow <;> simp [decode, decodeFamily8, ifSelector0, digits_of_nibble h]

theorem decode_ok_of_byteRow {w : Word} {row : Word × Word} (hrow : row ∈ byteRows) (h : w &&& row.1 = row.2) :
    ∃ i, decode w = .ok i := by
  fin_cases hrow <;> simp [decode, decodeFamilyE, decodeFamilyF, digits_of_byte h]

theorem decode_ok_of_row {w : Word} {row : Word × Word} (hrow : row ∈ opcodeRows) (h : w &&& row.1 = row.2) :
    ∃ i, decode w = .ok i := by
  simp only [opcodeRows, List.mem_append] at hrow
  obtain ((hfixed | hfamily) | hnibble) | hbyte := hrow
  · exact decode_ok_of_fixedRow hfixed h
  · exact decode_ok_of_familyRow hfamily h
  · exact decode_ok_of_nibbleRow hnibble h
  · exact decode_ok_of_byteRow hbyte h

/-- A word is accepted exactly when it has a row's pattern: it is then the encoding of an instruction of that row. -/
theorem decode_ok_iff_row (w : Word) : (∃ i, decode w = .ok i) ↔ ∃ row ∈ opcodeRows, w &&& row.1 = row.2 := by
  constructor
  · rintro ⟨i, hi⟩
    exact ⟨_, rowOf_mem i, encode_of_decode hi ▸ encode_and_mask i⟩
  · rintro ⟨row, hrow, h⟩
    exact decode_ok_of_row hrow h

theorem decode_error {w : Word} {e : DecodeError} (h : decode w = .error e) : e = .invalid w := by
  unfold decode decodeFamily0 decodeFamily8 decodeFamilyE decodeFamilyF ifSelector0 at h
  repeat' split at h
  all_goals cases h
  all_goals rfl

theorem decode_invalid {w : Word} (h : ∀ row ∈ opcodeRows, w &&& row.1 ≠ row.2) : decode w = .error (.invalid w) := by
  cases hd : decode w with
  | error e => rw [decode_error hd]
  | ok i =>
    obtain ⟨row, hrow, hw⟩ := (decode_ok_iff_row w).1 ⟨i, hd⟩
    exact absurd hw (h row hrow)

/-- Settles O3: what is decoded re-encodes to a word of its row, and a row's digits select an arm of the decoder. -/
theorem decodeAcceptsExactlyTheTableRows : Obligations.DecodeAcceptsExactlyTheTableRows :=
  fun w => ⟨decode_ok_iff_row w, decode_invalid⟩

/-- Settles O5, by running the decoder on each word. -/
theorem sampleWordsDecode : Obligations.SampleWordsDecode := by
  refine ⟨?_, ?_, ?_, ?_, ?_⟩
  all_goals decide

end Sys2Proof
end

section
/-! PROOF. 60_exceptions.md R113: each instruction raises exactly its error of the table, or it completes. What it then
does is said once for all instructions, as `effect`; every statement about all instructions goes through it. -/

namespace Sys2Proof.Machine

open Sys2Proof.Claims (accessError operandError errorOf)

/-! ### The two error conditions -/

theorem accessError_eq_none {a n : Nat} : accessError a n = none ↔ n = 0 ∨ a + n ≤ 4096 := by
  rw [accessError, ite_eq_right_iff]
  simp only [reduceCtorEq, imp_false]
  omega

theorem accessError_eq_some {a n : Nat} {f : Fault} :
    accessError a n = some f ↔ (n ≠ 0 ∧ 4096 < a + n) ∧ .memoryFault (max a 4096) = f := by
  simp only [accessError, Option.ite_none_right_eq_some, Option.some_inj]

theorem operandError_eq_none {i : Instr} {s : State} {x : Reg} : operandError i s x = none ↔ (s.reg x).toNat < 16 := by
  rw [operandError, ite_eq_right_iff, State.reg, Fin.getElem_fin]
  simp only [reduceCtorEq, imp_false]
  omega

theorem operandError_eq_some {i : Instr} {s : State} {x : Reg} {f : Fault} :
    operandError i s x = some f ↔ 15 < (s.reg x).toNat ∧ .undefinedOperand (encode i) s.pc = f := by
  simp only [operandError, Option.ite_none_right_eq_some, Option.some_inj, State.reg]

/-! ### What an instruction does where it raises no error -/

/-- The `n` bytes at `I`. -/
def State.bytesAtI (s : State) (n : Nat) : List Byte := (List.range' s.base n).map s.mem.read

/-- The glyph or key number in `V[x]`. -/
def State.nibble (s : State) (x : Reg) : Fin 16 := Fin.ofNat 16 (s.reg x).toNat

/-- What `DXYN` draws. -/
def State.canvas (s : State) (x y : Reg) (n : Fin 16) : Canvas :=
  blit (s.reg x) (s.reg y) (s.bytesAtI n.val) s.display

/-- The state each instruction leaves where it raises no error (`exec_of_errorOf_none`). -/
def effect : Instr → State → State
  | .cls, s => { s with display := clearDisplay, dirty := true }.advance
  | .ret, s => { s with sp := ⟨s.sp.val - 1, by omega⟩ }.jumpTo (s.stack[s.sp] + 2)
  | .jp nnn, s => s.jumpTo (zextImm nnn)
  | .call nnn, s => { s with sp := s.sp + 1, stack := s.stack.set (s.sp + 1 : Fin 16) s.pc }.jumpTo (zextImm nnn)
  | .seImm x nn, s => s.skipIf (s.reg x == nn)
  | .sneImm x nn, s => s.skipIf (s.reg x != nn)
  | .seReg x y, s => s.skipIf (s.reg x == s.reg y)
  | .ldImm x nn, s => (s.setReg x nn).advance
  | .addImm x nn, s => (s.setReg x (s.reg x + nn)).advance
  | .ldReg x y, s => (s.setReg x (s.reg y)).advance
  | .orReg x y, s => (s.setReg x (s.reg x ||| s.reg y)).advance
  | .andReg x y, s => (s.setReg x (s.reg x &&& s.reg y)).advance
  | .xorReg x y, s => (s.setReg x (s.reg x ^^^ s.reg y)).advance
  | .addReg x y, s => (s.writeAlu x (aluAdd (s.reg x) (s.reg y))).advance
  | .sub x y, s => (s.writeAlu x (aluSub (s.reg x) (s.reg y))).advance
  | .shr x _, s => (s.writeAlu x (aluShr (s.reg x))).advance
  | .subn x y, s => (s.writeAlu x (aluSub (s.reg y) (s.reg x))).advance
  | .shl x _, s => (s.writeAlu x (aluShl (s.reg x))).advance
  | .sneReg x y, s => s.skipIf (s.reg x != s.reg y)
  | .ldI nnn, s => (s.setI (zextImm nnn)).advance
  | .jpV0 nnn, s => s.jumpTo (offsetTarget nnn (s.reg 0))
  | .rnd x nn, s => (s.setReg x (s.input.rnd &&& nn)).advance
  | .drw x y n, s =>
    { s.setReg vf (flagByte (s.canvas x y n).coll) with display := (s.canvas x y n).cells, dirty := true }.advance
  | .skp x, s => s.skipIf (s.key (s.nibble x))
  | .sknp x, s => s.skipIf (!s.key (s.nibble x))
  | .ldVxDt x, s => (s.setReg x s.dt).advance
  | .ldDtVx x, s => { s with dt := s.reg x }.advance
  | .ldStVx x, s => { s with st := s.reg x }.advance
  | .addI x, s => (s.setI (s.i + zext16 (s.reg x))).advance
  | .ldF x, s => (s.setI (glyphAddress (s.nibble x))).advance
  | .ldB x, s => { s with mem := s.mem.writeList s.base (bcdDigits (s.reg x)) }.advance
  | .stRegs x, s => { s with mem := s.mem.writeList s.base (s.regsUpTo x) }.advance
  | .ldRegs x, s => (s.loadRegs (s.bytesAtI (x.val + 1))).advance

theorem State.val_nibble {s : State} {x : Reg} (h : (s.reg x).toNat < 16) : (s.reg x).toNat = (s.nibble x).val :=
  (Nat.mod_eq_of_lt h).symm

/-! ### Execute is the table of errors and `effect` -/

section Execute

variable {i : Instr} {s t : State} {f : Fault}

/-- An instruction of the error table raises its error in its one access to memory or the stack, or on its operand. -/
theorem exec_of_errorOf_some (h : errorOf s i = some f) : exec i s = .fault f := by
  cases i with
  | ret =>
    obtain ⟨hsp, ⟨⟩⟩ := Option.ite_none_right_eq_some.1 h
    rw [exec, execRet, popEntry_empty hsp, andThen_error]
  | call nnn =>
    obtain ⟨hsp, ⟨⟩⟩ := Option.ite_none_right_eq_some.1 h
    rw [exec, execCall, pushPc_full hsp, andThen_error]
  | drw x y n =>
    obtain ⟨⟨hn, hlen⟩, rfl⟩ := (accessError_eq_some (a := s.base)).1 h
    rw [exec, execDrw, readBytes_error hn hlen, andThen_error]
  | ldRegs x =>
    obtain ⟨⟨hn, hlen⟩, rfl⟩ := (accessError_eq_some (a := s.base)).1 h
    rw [exec, execLdRegs, readBytes_error hn hlen, andThen_error]
  | ldB x =>
    obtain ⟨⟨-, hlen⟩, rfl⟩ := (accessError_eq_some (a := s.base)).1 h
    rw [exec, execLdB, writeBytes_error (bs := bcdDigits (s.reg x)) (List.cons_ne_nil _ _) hlen, andThen_error]
  | stRegs x =>
    obtain ⟨⟨hn, hlen⟩, rfl⟩ := (accessError_eq_some (a := s.base)).1 h
    rw [← length_regsUpTo s x] at hn hlen
    rw [exec, execStRegs, writeBytes_error (List.ne_nil_of_length_pos (Nat.pos_of_ne_zero hn)) hlen, andThen_error]
  | skp x =>
    obtain ⟨hx, rfl⟩ := operandError_eq_some.1 h
    rw [exec, execSkp, nibbleOperand_of_gt hx, andThen_error]
  | sknp x =>
    obtain ⟨hx, rfl⟩ := operandError_eq_some.1 h
    rw [exec, execSknp, nibbleOperand_of_gt hx, andThen_error]
  | ldF x =>
    obtain ⟨hx, rfl⟩ := operandError_eq_some.1 h
    rw [exec, execLdF, nibbleOperand_of_gt hx, andThen_error]
  | _ => cases h

theorem exec_of_errorOf_none (h : errorOf s i = none) : exec i s = .next (effect i s) := by
  cases i with
  | ret =>
    have hsp : s.sp.val ≠ 0 := by simpa [errorOf] using h
    rw [exec, execRet, popEntry_of_pos (Nat.pos_of_ne_zero hsp), andThen_ok, effect]
  | call nnn =>
    have hsp : s.sp.val ≠ 15 := by simpa [errorOf] using h
    have hlt : s.sp.val + 1 < 16 := by omega
    have hnext : s.sp + 1 = ⟨s.sp.val + 1, hlt⟩ := Fin.ext (Nat.mod_eq_of_lt hlt)
    rw [exec, execCall, pushPc_of_lt hlt, andThen_ok, effect]
    simp only [hnext]
  | drw x y n =>
    rw [exec, execDrw, readBytes_ok ((accessError_eq_none (a := s.base)).1 h).symm, andThen_ok]
    rfl
  | ldRegs x =>
    rw [exec, execLdRegs, readBytes_ok ((accessError_eq_none (a := s.base)).1 h).symm, andThen_ok]
    rfl
  | ldB x =>
    have hlen : s.base + (bcdDigits (s.reg x)).length ≤ 4096 :=
      ((accessError_eq_none (a := s.base)).1 h).resolve_left (by decide)
    rw [exec, execLdB, writeBytes_ok (Or.inl hlen), andThen_ok, effect]
  | stRegs x =>
    have hlen := ((accessError_eq_none (a := s.base)).1 h).resolve_left (Nat.succ_ne_zero _)
    rw [← length_regsUpTo s x] at hlen
    rw [exec, execStRegs, writeBytes_ok (Or.inl hlen), andThen_ok, effect]
  | skp x =>
    rw [exec, execSkp, nibbleOperand_of_eq (State.val_nibble (operandError_eq_none.1 h)), andThen_ok, effect]
  | sknp x =>
    rw [exec, execSknp, nibbleOperand_of_eq (State.val_nibble (operandError_eq_none.1 h)), andThen_ok, effect]
  | ldF x =>
    rw [exec, execLdF, nibbleOperand_of_eq (State.val_nibble (operandError_eq_none.1 h)), andThen_ok, effect]
  | _ => rfl

theorem exec_eq_next : exec i s = .next t ↔ errorOf s i = none ∧ t = effect i s := by
  cases h : errorOf s i with
  | none => simp [exec_of_errorOf_none h, eq_comm]
  | some f => simp [exec_of_errorOf_some h]

end Execute

/-- Settles O10, by the two conditions of the table: the next state is `effect i s`. -/
theorem execCompletesOrRaisesTheTabledError : Obligations.ExecCompletesOrRaisesTheTabledError :=
  fun i s => ⟨fun _ => exec_of_errorOf_some, fun h => ⟨effect i s, exec_of_errorOf_none h⟩⟩

end Sys2Proof.Machine
end

section
/-! PROOF. 30_encoding.md section 6 and 60_exceptions.md: the stages of a step, and the errors a step raises. -/

namespace Sys2Proof.Machine

open Sys2Proof.Claims (errorOf)

/-! ### The step, by what it fetched -/

section Step

variable {s t : State} {w : Word} {i : Instr} {f : Fault}

theorem step_of_fetch_error (h : fetchOpcode s = .error f) : step s = .fault f := by
  rw [step, fetchOpcode_latchKeys, h, andThen_error]

theorem step_of_fetch_ok (h : fetchOpcode s = .ok w) : step s = runOpcode w s.latchKeys := by
  rw [step, fetchOpcode_latchKeys, h, andThen_ok]

theorem step_of_decode_error {e : DecodeError} (hw : fetchOpcode s = .ok w) (hd : decode w = .error e) :
    step s = .fault (.invalidOpcode w s.pc) := by
  rw [step_of_fetch_ok hw, runOpcode, hd, raise, latchKeys_pc]

theorem step_of_decode_ok (hw : fetchOpcode s = .ok w) (hd : decode w = .ok i) :
    step s = endStepOf (exec i s.latchKeys) := by
  rw [step_of_fetch_ok hw, runOpcode, hd]

theorem step_of_exec_next (hw : fetchOpcode s = .ok w) (hd : decode w = .ok i) (ht : exec i s.latchKeys = .next t) :
    step s = .next t.endStep := by
  rw [step_of_decode_ok hw hd, ht, endStepOf]

/-- The error table reads `V`, `I`, `PC` and `SP` alone (60_exceptions.md R113). -/
theorem errorOf_congr (hv : t.v = s.v) (hi : t.i = s.i) (hpc : t.pc = s.pc) (hsp : t.sp = s.sp) (i : Instr) :
    errorOf t i = errorOf s i := by
  cases i <;> simp only [errorOf, Claims.operandError, hv, hi, hpc, hsp]

@[simp] theorem errorOf_latchKeys (s : State) (i : Instr) : errorOf s.latchKeys i = errorOf s i :=
  errorOf_congr rfl rfl rfl rfl i

theorem step_of_errorOf_none (hw : fetchOpcode s = .ok w) (hd : decode w = .ok i) (he : errorOf s i = none) :
    step s = .next (effect i s.latchKeys).endStep :=
  step_of_exec_next hw hd (exec_of_errorOf_none ((errorOf_latchKeys s i).trans he))

theorem step_of_errorOf_some (hw : fetchOpcode s = .ok w) (hd : decode w = .ok i) (he : errorOf s i = some f) :
    step s = .fault f := by
  rw [step_of_decode_ok hw hd, exec_of_errorOf_some ((errorOf_latchKeys s i).trans he), endStepOf]

/-- A completed step is the effect of one instruction, then the timer stage. -/
theorem step_next_effect (h : step s = .next t) :
    ∃ w i, fetchOpcode s = .ok w ∧ decode w = .ok i ∧ errorOf s i = none ∧ t = (effect i s.latchKeys).endStep := by
  obtain ⟨w, i, u, hw, hd, hu, rfl⟩ := step_next h
  obtain ⟨he, rfl⟩ := exec_eq_next.1 hu
  exact ⟨w, i, hw, hd, errorOf_latchKeys s i ▸ he, rfl⟩

/-- The three stages that raise: fetch, decode, execute (60_exceptions.md R116). -/
theorem step_eq_fault : step s = .fault f ↔
    fetchOpcode s = .error f ∨ ∃ w, fetchOpcode s = .ok w ∧
      ((∃ e, decode w = .error e ∧ f = .invalidOpcode w s.pc) ∨ ∃ i, decode w = .ok i ∧ errorOf s i = some f) := by
  cases hw : fetchOpcode s with
  | error g => simp [step_of_fetch_error hw]
  | ok w =>
    cases hd : decode w with
    | error e => simp [step_of_decode_error hw hd, hd, eq_comm]
    | ok i =>
      cases he : errorOf s i with
      | none => simp [step_of_errorOf_none hw hd he, hd, he]
      | some g => simp [step_of_errorOf_some hw hd he, hd, he]

theorem step_ne_refused (s : State) (r : Refusal) : step s ≠ .refused r := by
  cases hw : fetchOpcode s with
  | error g => simp [step_of_fetch_error hw]
  | ok w =>
    cases hd : decode w with
    | error e => simp [step_of_decode_error hw hd]
    | ok i =>
      cases he : errorOf s i with
      | none => simp [step_of_errorOf_none hw hd he]
      | some g => simp [step_of_errorOf_some hw hd he]

theorem errorOf_cases (h : errorOf s i = some f) :
    f = .stackUnderflow ∨ f = .stackOverflow ∨ (∃ a, f = .memoryFault a) ∨ f = .undefinedOperand (encode i) s.pc := by
  cases i with
  | ret =>
    obtain ⟨-, ⟨⟩⟩ := Option.ite_none_right_eq_some.1 h
    exact Or.inl rfl
  | call nnn =>
    obtain ⟨-, ⟨⟩⟩ := Option.ite_none_right_eq_some.1 h
    exact Or.inr (Or.inl rfl)
  | drw | ldB | stRegs | ldRegs =>
    obtain ⟨-, rfl⟩ := accessError_eq_some.1 h
    exact Or.inr (Or.inr (Or.inl ⟨_, rfl⟩))
  | skp | sknp | ldF =>
    obtain ⟨-, rfl⟩ := operandError_eq_some.1 h
    exact Or.inr (Or.inr (Or.inr rfl))
  | _ => cases h

theorem fetchOpcode_eq_error (h : fetchOpcode s = .error f) : f = .memoryFault (max s.pc.toNat 4096) := by
  by_cases hpc : s.pc.toNat + 1 < 4096
  · rw [fetchOpcode_ok hpc] at h
    cases h
  · rw [fetchOpcode_error (by omega)] at h
    exact (Except.error.inj h).symm

end Step

/-- Settles O6: the fetch stays inside memory, so it gives the two bytes at `PC`. -/
theorem stepRunsTheDecodedInstruction : Obligations.StepRunsTheDecodedInstruction :=
  fun _ _ hpc hd => step_of_decode_ok (fetchOpcode_ok hpc) hd

/-- Settles O7: the two bytes are the halves of the word. -/
theorem fetchIsBigEndian : Obligations.FetchIsBigEndian :=
  fun _ hpc => ⟨_, fetchOpcode_ok hpc, toNat_opcodeOf _ _⟩

/-- Settles O8: the fetch comes before every other stage. -/
theorem fetchPastMemoryFaults : Obligations.FetchPastMemoryFaults :=
  fun _ hpc => step_of_fetch_error (fetchOpcode_error hpc)

/-- Settles O9: the decoder rejects the word by `decode_invalid`. -/
theorem invalidWordRaisesInvalidOpcode : Obligations.InvalidWordRaisesInvalidOpcode :=
  fun _ _ hw hrows => step_of_decode_error hw (decode_invalid hrows)

/-- Settles O11: decode names the fetched word itself, and execute the encoding of what that word decoded to, which is the
word again by `encode_of_decode`. -/
theorem errorsNameTheFetchedWord : Obligations.ErrorsNameTheFetchedWord := by
  rintro s w pc (h | h) <;> obtain hf | ⟨v, hv, ⟨e, -, hf⟩ | ⟨i, hi, hf⟩⟩ := step_eq_fault.1 h
  · cases fetchOpcode_eq_error hf
  · cases hf
    exact ⟨hv, rfl⟩
  · obtain hf | hf | ⟨a, hf⟩ | hf := errorOf_cases hf <;> cases hf
  · cases fetchOpcode_eq_error hf
  · cases hf
  · obtain hf | hf | ⟨a, hf⟩ | hf := errorOf_cases hf
    · cases hf
    · cases hf
    · cases hf
    · cases hf
      exact ⟨encode_of_decode hi ▸ hv, rfl⟩

/-- Settles O12: no stage of a step has a refusal, and none of them raises `ProgramTooLarge`. -/
theorem stepNeverRefuses : Obligations.StepNeverRefuses := by
  refine fun s => ⟨step_ne_refused s, fun h => ?_⟩
  obtain hf | ⟨w, -, ⟨e, -, hf⟩ | ⟨i, -, hf⟩⟩ := step_eq_fault.1 h
  · cases fetchOpcode_eq_error hf
  · cases hf
  · obtain hf | hf | ⟨a, hf⟩ | hf := errorOf_cases hf <;> cases hf

/-- Settles O13: fetch, decode and the error table read no key, no input and no step count. -/
theorem stepErrorsDependOnNoInput : Obligations.StepErrorsDependOnNoInput := by
  intro s f keys inputs n h
  rw [step_eq_fault] at h ⊢
  have herr : ∀ i, errorOf { s with keys := keys, inputs := inputs, stepCount := n } i = errorOf s i :=
    errorOf_congr rfl rfl rfl rfl
  simp only [herr]
  exact h

end Sys2Proof.Machine
end

section
/-! PROOF. 10_state.md sections 1, 4 and 9, 20_memory.md section 1: what no instruction changes. -/

namespace Sys2Proof.Machine

open Sys2Proof.Claims

section Frames

variable {i : Instr} {s t : State}

/-! ### The special state: every instruction but those named keeps the field -/

theorem effect_i (h : writesIndex i = false) : (effect i s).i = s.i := by
  cases i with
  | ldI | addI | ldF => cases h
  | _ => simp [effect]

theorem effect_sp (h : writesSp i = false) : (effect i s).sp = s.sp := by
  cases i with
  | call | ret => cases h
  | _ => simp [effect]

theorem effect_stack (h : writesStack i = false) : (effect i s).stack = s.stack := by
  cases i with
  | call => cases h
  | _ => simp [effect]

theorem effect_dt (h : writesDelay i = false) : (effect i s).dt = s.dt := by
  cases i with
  | ldDtVx => cases h
  | _ => simp [effect]

theorem effect_st (h : writesSound i = false) : (effect i s).st = s.st := by
  cases i with
  | ldStVx => cases h
  | _ => simp [effect]

theorem effect_display (h : writesDisplay i = false) :
    (effect i s).display = s.display ∧ (effect i s).dirty = s.dirty := by
  cases i with
  | cls | drw => cases h
  | _ => simp [effect]

@[simp] theorem effect_keys (i : Instr) (s : State) : (effect i s).keys = s.keys := by cases i <;> simp [effect]

@[simp] theorem effect_inputs (i : Instr) (s : State) : (effect i s).inputs = s.inputs := by cases i <;> simp [effect]

@[simp] theorem effect_stepCount (i : Instr) (s : State) : (effect i s).stepCount = s.stepCount := by
  cases i <;> simp [effect]

@[simp] theorem effect_beep (i : Instr) (s : State) : (effect i s).beep = s.beep := by cases i <;> simp [effect]

/-! ### The general registers -/

theorem reg_setReg_of_ne {x r : Reg} (h : r ≠ x) (b : Byte) : (s.setReg x b).reg r = s.reg r := by
  rw [reg_setReg, if_neg h]

theorem reg_writeAlu_of_ne {x r : Reg} (hx : r ≠ x) (hf : r ≠ vf) (o : AluOut) : (s.writeAlu x o).reg r = s.reg r := by
  rw [reg_writeAlu, if_neg hx, if_neg hf]

theorem reg_loadRegs_of_length_le {bytes : List Byte} {r : Reg} (h : bytes.length ≤ r.val) :
    (s.loadRegs bytes).reg r = s.reg r := by
  rw [reg_loadRegs, List.getElem?_eq_none h, Option.getD_none]

@[simp] theorem length_bytesAtI (s : State) (n : Nat) : (s.bytesAtI n).length = n := by
  rw [State.bytesAtI, List.length_map, List.length_range']

theorem effect_reg {r : Reg} (h : writesReg r i = false) : (effect i s).reg r = s.reg r := by
  cases i with
  | ldImm x | addImm x | rnd x | ldVxDt x | ldReg x | orReg x | andReg x | xorReg x =>
    simpa only [effect, reg_def, advance_v] using reg_setReg_of_ne (of_decide_eq_false h) _
  | addReg x | sub x | shr x | subn x | shl x =>
    obtain ⟨hx, hf⟩ := Bool.or_eq_false_iff.1 h
    simpa only [effect, reg_def, advance_v] using reg_writeAlu_of_ne (of_decide_eq_false hx) (of_decide_eq_false hf) _
  | drw =>
    simpa only [effect, reg_def, advance_v] using reg_setReg_of_ne (of_decide_eq_false h) _
  | ldRegs x =>
    have hx : ¬ r ≤ x := of_decide_eq_false h
    simpa only [effect, reg_def, advance_v] using
      reg_loadRegs_of_length_le ((length_bytesAtI s (x.val + 1)).le.trans (not_le.1 hx))
  | _ => simp [effect, reg_def]

/-! ### Memory -/

/-- The bytes an instruction stores from `I` upwards; most store none (20_memory.md R42). -/
def storedBytes (s : State) : Instr → List Byte
  | .ldB x => bcdDigits (s.reg x)
  | .stRegs x => s.regsUpTo x
  | _ => []

theorem effect_mem (i : Instr) (s : State) : (effect i s).mem = s.mem.writeList s.base (storedBytes s i) := by
  cases i with
  | ldB | stRegs => rfl
  | _ => simp [effect, storedBytes, Memory.writeList]

/-- Where no error is raised, the stored bytes lie inside memory. -/
theorem storedBytes_inside (he : errorOf s i = none) :
    storedBytes s i = [] ∨ s.base + (storedBytes s i).length ≤ 4096 := by
  cases i with
  | ldB x => exact Or.inr ((accessError_eq_none (a := s.base)).1 he |>.resolve_left (by decide))
  | stRegs x =>
    refine Or.inr ?_
    rw [storedBytes, length_regsUpTo]
    exact (accessError_eq_none (a := s.base)).1 he |>.resolve_left (Nat.succ_ne_zero _)
  | _ => exact Or.inl rfl

theorem effect_mem_wf (hm : s.mem.wf = true) (he : errorOf s i = none) : (effect i s).mem.wf = true := by
  rw [effect_mem]
  obtain h | h := storedBytes_inside he
  · rwa [h]
  · exact Memory.writeList_wf hm h

theorem outside_of_storesTo {a : Nat} (h : storesTo s a i = false) :
    a < s.base ∨ s.base + (storedBytes s i).length ≤ a := by
  cases i with
  | ldB x =>
    simp only [storesTo, Bool.and_eq_false_iff, decide_eq_false_iff_not] at h
    rw [storedBytes, length_bcdDigits, State.base]
    omega
  | stRegs x =>
    simp only [storesTo, Bool.and_eq_false_iff, decide_eq_false_iff_not] at h
    rw [storedBytes, length_regsUpTo, State.base]
    omega
  | _ => exact Nat.lt_or_ge a s.base

/-- A run of stores keeps the bytes outside it. -/
theorem Memory.read_writeList_outside {m : Memory} {a b : Nat} {bs : List Byte} (hm : m.wf = true)
    (hin : a + bs.length ≤ 4096) (hout : b < a ∨ a + bs.length ≤ b) : (m.writeList a bs).read b = m.read b := by
  rw [Memory.read_writeList hm hin]
  split
  · rw [List.getElem?_eq_none (by omega), Option.getD_none]
  · rfl

theorem effect_read {a : Nat} (hm : s.mem.wf = true) (he : errorOf s i = none) (h : storesTo s a i = false) :
    (effect i s).mem.read a = s.mem.read a := by
  rw [effect_mem]
  obtain hnil | hin := storedBytes_inside he
  · rw [hnil, Memory.writeList]
  · exact Memory.read_writeList_outside hm hin (outside_of_storesTo h)

end Frames

/-- Settles O54, from `effect_reg`. -/
theorem registersKeepUnlessNamed : Obligations.RegistersKeepUnlessNamed := by
  intro i s t r ht hr
  obtain ⟨-, rfl⟩ := exec_eq_next.1 ht
  exact effect_reg hr

/-- Settles O55, field by field. -/
theorem specialStateKeepsUnlessNamed : Obligations.SpecialStateKeepsUnlessNamed := by
  intro i s t ht
  obtain ⟨-, rfl⟩ := exec_eq_next.1 ht
  exact ⟨effect_i, effect_sp, effect_stack, effect_dt, effect_st, effect_display, effect_keys i s, effect_inputs i s,
    effect_stepCount i s, effect_beep i s⟩

/-- Settles O56, from `effect_read`. -/
theorem memoryKeepsUnlessStoredTo : Obligations.MemoryKeepsUnlessStoredTo := by
  intro i s t a hm ht ha
  obtain ⟨he, rfl⟩ := exec_eq_next.1 ht
  exact effect_read hm he ha

theorem val_sp_add_one {s : State} {nnn : Imm12} (he : errorOf s (.call nnn) = none) :
    (s.sp + 1 : Fin 16).val = s.sp.val + 1 := by
  have hsp : s.sp.val ≠ 15 := by simpa [errorOf] using he
  exact Nat.mod_eq_of_lt (by omega : s.sp.val + 1 < 16)

/-- Settles O57: a call alone writes a stack entry, at an `SP` that is at least 1. -/
theorem stackEntryZeroIsNeverWritten : Obligations.StackEntryZeroIsNeverWritten := by
  intro s t h
  obtain ⟨w, i, -, -, he, rfl⟩ := step_next_effect h
  cases i with
  | call nnn =>
    have hsp : (s.sp + 1 : Fin 16).val ≠ 0 := by
      rw [val_sp_add_one he]
      exact Nat.succ_ne_zero _
    exact Vector.getElem_set_ne (s.sp + 1 : Fin 16).isLt (by decide) hsp
  | _ => simp [effect]

end Sys2Proof.Machine
end

section
/-! PROOF. 30_encoding.md section 6 (R70) and 10_state.md section 2: the next `PC` of every instruction, and the invariant
that every step keeps. -/

namespace Sys2Proof.Machine

open Sys2Proof.Claims

section NextPc

variable {s t : State} {i : Instr}

theorem toNat_pc_add {d : Word} (h : s.pc.toNat ≤ 4094) (hd : d.toNat ≤ 4) :
    (s.pc + d).toNat = s.pc.toNat + d.toNat := by
  rw [BitVec.toNat_add]
  exact Nat.mod_eq_of_lt (by omega : s.pc.toNat + d.toNat < 65536)

theorem toNat_pc_add_two (h : s.pc.toNat ≤ 4094) : (s.pc + 2).toNat = s.pc.toNat + 2 :=
  toNat_pc_add h (by decide)

theorem toNat_pc_skip (h : s.pc.toNat ≤ 4094) (c : Bool) :
    (s.skipIf c).pc.toNat = s.pc.toNat + if c = true then 4 else 2 := by
  cases c with
  | false => exact toNat_pc_add_two h
  | true => exact toNat_pc_add h (d := 4) (by decide)

theorem toNat_offsetTarget (nnn : Imm12) (b : Byte) : (offsetTarget nnn b).toNat = nnn.toNat + b.toNat := by
  have hsum : nnn.toNat + b.toNat < 65536 := by omega
  simp only [offsetTarget, BitVec.toNat_add, BitVec.toNat_setWidth]
  omega

/-- The key number in `V[x]` names one of the 16 keys. -/
theorem key_nibble {x : Reg} (h : (s.reg x).toNat < 16) :
    s.keys.toList[s.v[x].toNat]? = some (s.key (s.nibble x)) := by
  have hx : s.v[x].toNat = (s.nibble x).val := State.val_nibble h
  rw [hx]
  simp [State.key]

/-- Without wrap, because `PC` and every live stack entry are at most 4094. -/
theorem toNat_effect_pc (hs : s.Inv) (hpc : s.pc.toNat ≤ 4094) (he : errorOf s i = none) :
    (effect i s).pc.toNat = nextPc s i := by
  cases i with
  | ret =>
    have hsp : s.sp.val ≠ 0 := by simpa [errorOf] using he
    have hlive := hs.liveEntries s.sp (Nat.pos_of_ne_zero hsp) le_rfl
    simp only [effect, jumpTo_pc, BitVec.toNat_add, nextPc]
    exact Nat.mod_eq_of_lt (by omega : s.stack[s.sp].toNat + 2 < 65536)
  | jp nnn | call nnn =>
    simp only [effect, jumpTo_pc, nextPc]
    exact BitVec.toNat_setWidth_of_le (by decide : 12 ≤ 16)
  | jpV0 nnn => exact toNat_offsetTarget nnn _
  | seImm | seReg => simp only [effect, toNat_pc_skip hpc, nextPc, beq_iff_eq, State.reg]
  | sneImm | sneReg => simp only [effect, toNat_pc_skip hpc, nextPc, bne_iff_ne, ne_eq, ite_not, State.reg]
  | skp x =>
    simp only [effect, toNat_pc_skip hpc, nextPc, key_nibble (operandError_eq_none.1 he), Option.some_inj]
  | sknp x =>
    simp only [effect, toNat_pc_skip hpc, nextPc, key_nibble (operandError_eq_none.1 he), Option.some_inj]
    cases s.key (s.nibble x) <;> rfl
  | _ => simp only [effect, advance_pc, setReg_pc, writeAlu_pc, setI_pc, loadRegs_pc, toNat_pc_add_two hpc, nextPc]

/-- The largest target is that of `BNNN` (10_state.md R23). -/
theorem nextPc_le (hs : s.Inv) (hpc : s.pc.toNat ≤ 4094) (he : errorOf s i = none) : nextPc s i ≤ 0x10FE := by
  cases i with
  | ret =>
    have hsp : s.sp.val ≠ 0 := by simpa [errorOf] using he
    have hlive := hs.liveEntries s.sp (Nat.pos_of_ne_zero hsp) le_rfl
    rw [nextPc]
    omega
  | jp nnn | call nnn | jpV0 nnn =>
    rw [nextPc]
    omega
  | seImm | sneImm | seReg | sneReg | skp | sknp =>
    rw [nextPc]
    split
    all_goals omega
  | _ =>
    simp only [nextPc]
    omega

end NextPc

/-- Settles O38, from `toNat_effect_pc`. -/
theorem nextPcIsByClass : Obligations.NextPcIsByClass := by
  intro i s t hs hpc ht
  obtain ⟨he, rfl⟩ := exec_eq_next.1 ht
  exact toNat_effect_pc hs hpc he

section Invariant

variable {s t : State} {i : Instr} {w : Word}

theorem pc_le_of_fetchOpcode (h : fetchOpcode s = .ok w) : s.pc.toNat ≤ 4094 := by
  by_contra hpc
  rw [fetchOpcode_error (by omega)] at h
  cases h

/-- A call makes its own address live, a return makes one entry stale, and no other instruction changes the stack. -/
theorem effect_liveEntries (hs : s.Inv) (hpc : s.pc.toNat ≤ 4094) (he : errorOf s i = none) (k : Fin 16)
    (hk : 0 < k.val) (hle : k.val ≤ (effect i s).sp.val) : (effect i s).stack[k].toNat ≤ 4094 := by
  cases i with
  | call nnn =>
    simp only [effect, jumpTo_stack, jumpTo_sp, val_sp_add_one he, Fin.getElem_fin, Vector.getElem_set] at hle ⊢
    split
    · exact hpc
    · exact hs.liveEntries k hk (by omega)
  | ret => exact hs.liveEntries k hk (hle.trans (Nat.sub_le _ _))
  | _ => simpa [effect] using hs.liveEntries k hk (by simpa [effect] using hle)

theorem effect_inv (hs : s.Inv) (hpc : s.pc.toNat ≤ 4094) (he : errorOf s i = none) : (effect i s).Inv where
  memCanonical := effect_mem_wf hs.memCanonical he
  pcBound := toNat_effect_pc hs hpc he ▸ nextPc_le hs hpc he
  liveEntries := effect_liveEntries hs hpc he

theorem latchKeys_inv (hs : s.Inv) : s.latchKeys.Inv := ⟨hs.memCanonical, hs.pcBound, hs.liveEntries⟩

theorem endStep_inv (hs : s.Inv) : s.endStep.Inv := ⟨hs.memCanonical, hs.pcBound, hs.liveEntries⟩

theorem step_inv (hs : s.Inv) (h : step s = .next t) : t.Inv := by
  obtain ⟨w, i, hw, -, he, rfl⟩ := step_next_effect h
  exact endStep_inv (effect_inv (latchKeys_inv hs) (pc_le_of_fetchOpcode hw) ((errorOf_latchKeys s i).trans he))

end Invariant

/-- Settles O23: a fetch bounds `PC` by 4094, and from there every instruction keeps the three parts of the invariant. -/
theorem stepKeepsTheInvariant : Obligations.StepKeepsTheInvariant :=
  fun _ _ => step_inv

end Sys2Proof.Machine
end

section
/-! PROOF. 10_state.md sections 4, 5, 7 and 10, 42_alu.md section 5: what no instruction reads. Two states that differ in
such a field alone fetch the same word and raise the same error, so only their effects have to be compared. -/

namespace Sys2Proof.Machine

open Sys2Proof.Claims

section Agreement

variable {s t : State}

theorem fetchOpcode_congr (hpc : t.pc = s.pc) (hmem : t.mem = s.mem) : fetchOpcode t = fetchOpcode s := by
  simp only [fetchOpcode, memRead, hpc, hmem]

/-- The steps of two states agree when the states fetch from the same place, the error table reads them alike, and the
effects are related after the timer stage. -/
theorem agreeUpTo_step {r : State → State → Prop} (hpc : t.pc = s.pc) (hmem : t.mem = s.mem)
    (herr : ∀ i, errorOf t i = errorOf s i)
    (heffect : ∀ w i, fetchOpcode s = .ok w → decode w = .ok i → errorOf s i = none →
      r (effect i s.latchKeys).endStep (effect i t.latchKeys).endStep) :
    AgreeUpTo r (step s) (step t) := by
  have hfetch := fetchOpcode_congr hpc hmem
  cases hw : fetchOpcode s with
  | error f =>
    rw [step_of_fetch_error hw, step_of_fetch_error (hfetch.trans hw)]
    rfl
  | ok w =>
    cases hd : decode w with
    | error e =>
      rw [step_of_decode_error hw hd, step_of_decode_error (hfetch.trans hw) hd, hpc]
      rfl
    | ok i =>
      cases he : errorOf s i with
      | some f =>
        rw [step_of_errorOf_some hw hd he, step_of_errorOf_some (hfetch.trans hw) hd ((herr i).trans he)]
        rfl
      | none =>
        rw [step_of_errorOf_none hw hd he, step_of_errorOf_none (hfetch.trans hw) hd ((herr i).trans he)]
        exact heffect w i hw hd he

end Agreement

/-! ### Stale stack entries -/

section StaleStack

variable {s : State} {stack : Vector Word 16} {i : Instr}

/-- The entries `S[1]` to `S[SP]` of a stack are those of the state. -/
def SameLive (s : State) (stack : Vector Word 16) : Prop :=
  ∀ k : Fin 16, 0 < k.val → k.val ≤ s.sp.val → stack[k] = s.stack[k]

theorem sameButStaleStack_iff {t : State} :
    SameButStaleStack s t ↔ ∃ stack, t = { s with stack := stack } ∧ SameLive s stack := by
  constructor
  · rintro ⟨ht, hlive⟩
    exact ⟨t.stack, ht, hlive⟩
  · rintro ⟨stack, rfl, hlive⟩
    exact ⟨rfl, hlive⟩

theorem effect_withStack (h : writesSp i = false) :
    effect i { s with stack := stack } = { effect i s with stack := stack } := by
  cases i with
  | call | ret => cases h
  | _ => rfl

/-- A call writes the same entry in both stacks, and a return reads a live entry. -/
theorem effect_sameButStaleStack (h : SameLive s stack) (he : errorOf s i = none) :
    SameButStaleStack (effect i s) (effect i { s with stack := stack }) := by
  cases i with
  | call nnn =>
    refine ⟨rfl, fun k hk hle => ?_⟩
    simp only [effect, jumpTo_stack, jumpTo_sp, val_sp_add_one he, Fin.getElem_fin, Vector.getElem_set] at hle ⊢
    split
    · rfl
    · exact h k hk (by omega)
  | ret =>
    have hsp : s.sp.val ≠ 0 := by simpa [errorOf] using he
    have htop : stack[s.sp] = s.stack[s.sp] := h s.sp (Nat.pos_of_ne_zero hsp) le_rfl
    rw [effect, effect, htop]
    exact ⟨rfl, fun k hk hle => h k hk (hle.trans (Nat.sub_le _ _))⟩
  | _ =>
    refine sameButStaleStack_iff.2 ⟨stack, effect_withStack rfl, fun k hk hle => ?_⟩
    simpa [effect] using h k hk (by simpa [effect] using hle)

theorem endStep_sameButStaleStack {t : State} (h : SameButStaleStack s t) : SameButStaleStack s.endStep t.endStep := by
  obtain ⟨stack, rfl, hlive⟩ := sameButStaleStack_iff.1 h
  exact ⟨rfl, hlive⟩

end StaleStack

/-- Settles O58: the error table reads `SP` but no entry, and effects keep the relation. -/
theorem staleStackEntriesAreUnobservable : Obligations.StaleStackEntriesAreUnobservable := by
  intro s t h
  obtain ⟨stack, rfl, hlive⟩ := sameButStaleStack_iff.1 h
  refine agreeUpTo_step rfl rfl (errorOf_congr rfl rfl rfl rfl) fun _ i _ _ he => ?_
  exact endStep_sameButStaleStack
    (effect_sameButStaleStack (s := s.latchKeys) hlive ((errorOf_latchKeys s i).trans he))

/-! ### `DIRTY`, the sound timer and the beep -/

/-- Each instruction sets such a field to a value of its own or keeps it, and takes no other value from it. -/
theorem effect_withDirtySoundBeep (i : Instr) (s : State) (dirty beep : Bool) (st : Byte) :
    ∃ dirty' beep' st', effect i { s with dirty := dirty, st := st, beep := beep } =
      { effect i s with dirty := dirty', st := st', beep := beep' } := by
  cases i <;> exact ⟨_, _, _, rfl⟩

/-- Settles O59, from `effect_withDirtySoundBeep`. -/
theorem dirtySoundAndBeepAreUnreadable : Obligations.DirtySoundAndBeepAreUnreadable := by
  intro s dirty beep st
  refine agreeUpTo_step rfl rfl (errorOf_congr rfl rfl rfl rfl) fun _ i _ _ _ => ?_
  obtain ⟨dirty', beep', st', h⟩ := effect_withDirtySoundBeep i s.latchKeys dirty beep st
  have hlatch : ({ s with dirty := dirty, st := st, beep := beep } : State).latchKeys =
      { s.latchKeys with dirty := dirty, st := st, beep := beep } := rfl
  rw [hlatch, h]
  rfl

/-! ### The random byte -/

theorem effect_withInputs {i : Instr} (h : ∀ x nn, i ≠ .rnd x nn) (s : State) (inputs : List StepInput) :
    effect i { s with inputs := inputs } = { effect i s with inputs := inputs } := by
  cases i with
  | rnd x nn => exact absurd rfl (h x nn)
  | _ => rfl

theorem eq_of_agreeUpTo_eq {a b : Host.Outcome State Fault Refusal} (h : AgreeUpTo Eq a b) : a = b := by
  unfold AgreeUpTo at h
  split at h
  case h_4 => exact h.elim
  all_goals rw [h]

/-- Settles O45: the effect of an instruction other than `CXNN` does not read the step's inputs, and the timer stage reads
their ticks alone. -/
theorem onlyRndDependsOnTheRandomByte : Obligations.OnlyRndDependsOnTheRandomByte := by
  intro s keys ticks r r' hrnd
  refine eq_of_agreeUpTo_eq (agreeUpTo_step rfl rfl (errorOf_congr rfl rfl rfl rfl) fun w i hw hd _ => ?_)
  have hne : ∀ x nn, i ≠ .rnd x nn := by
    rintro x nn rfl
    exact hrnd w x nn hw hd
  have heffect : ∀ r : Byte, effect i (s.supply ⟨keys, ticks, r⟩).latchKeys =
      { effect i { s with keys := keys } with inputs := ⟨keys, ticks, r⟩ :: s.inputs } :=
    fun _ => effect_withInputs hne { s with keys := keys } _
  rw [heffect, heffect]
  rfl

end Sys2Proof.Machine
end

section
/-! PROOF. 60_exceptions.md section 2 and 10_state.md section 11: the timer stage, and the step as the host calls it. -/

namespace Sys2Proof.Machine

open Sys2Proof.Claims

section Timers

variable {s t : State} {w : Word} {i : Instr}

/-! ### Counting down -/

theorem toNat_countDown (t : Byte) (n : Nat) : (countDown t n).toNat = t.toNat - n := by
  unfold countDown
  split
  · exact Nat.mod_eq_of_lt (by omega : t.toNat - n < 256)
  · exact (Nat.sub_eq_zero_of_le (by omega)).symm

theorem beepEdge_eq_true {t : Byte} {n : Nat} : beepEdge t n = true ↔ 1 ≤ t.toNat ∧ t.toNat ≤ n := by
  simp only [beepEdge, Bool.and_eq_true, decide_eq_true_eq]

theorem toNat_tick (t : Byte) : (tick t).toNat = t.toNat - 1 := by
  unfold tick
  split
  · subst t
    rfl
  · bv_omega

theorem toNat_tick_iterate (t : Byte) (n : Nat) : (tick^[n] t).toNat = t.toNat - n := by
  induction n with
  | zero => rfl
  | succ n ih => rw [Function.iterate_succ_apply', toNat_tick, ih, Nat.sub_sub]

/-! ### A step ends in the timer stage -/

@[simp] theorem effect_input (i : Instr) (s : State) : (effect i s).input = s.input := by
  simp only [State.input, effect_inputs, effect_stepCount]

/-! ### The step as the host calls it -/

theorem hostStep_of_errorOf_none (inp : StepInput) (hw : fetchOpcode s = .ok w) (hd : decode w = .ok i)
    (he : errorOf s i = none) : hostStep inp s = .next (effect i (s.supply inp).latchKeys).endStep :=
  step_of_errorOf_none hw hd ((errorOf_congr rfl rfl rfl rfl i).trans he)

theorem State.nibble_of_eq {x : Reg} {k : Fin 16} (h : (s.reg x).toNat = k.val) : s.nibble x = k :=
  Fin.ext ((State.val_nibble (h ▸ k.isLt)).symm.trans h)

end Timers

/-! ### The obligations -/

/-- Settles O15: both count downs lower the timer by `n` to a floor of 0, and the timer is 1 before tick number
`t.toNat - 1` alone. -/
theorem ticksAreSingleTicksInARow : Obligations.TicksAreSingleTicksInARow := by
  intro t n
  refine ⟨BitVec.eq_of_toNat_eq ?_, ?_⟩
  · rw [toNat_countDown, toNat_tick_iterate]
  · have hzero : (0 : Byte).toNat = 0 := rfl
    have hone : (1 : Byte).toNat = 1 := rfl
    simp only [beepEdge_eq_true, ← BitVec.toNat_inj, toNat_tick_iterate, hzero, hone]
    constructor
    · intro ⟨hpos, hle⟩
      refine ⟨t.toNat - 1, by omega, ?_⟩
      rintro k ⟨-, hk, -⟩
      omega
    · rintro ⟨k, ⟨hlt, hk, -⟩, -⟩
      omega

/-- Settles O14: an instruction changes no input, so the timer stage counts down by the ticks of the step. -/
theorem timerStageEndsTheStep : Obligations.TimerStageEndsTheStep := by
  intro s t w i hw hd ht
  obtain ⟨-, rfl⟩ := exec_eq_next.1 ht
  refine ⟨_, step_of_exec_next hw hd ht, ?dt, ?st, ?beep, ?frame⟩
  case dt => rw [endStep_dt, toNat_countDown, effect_input, input_latchKeys]
  case st => rw [endStep_st, toNat_countDown, effect_input, input_latchKeys]
  case beep => rw [endStep_beep, beepEdge_eq_true, effect_input, input_latchKeys]
  case frame =>
    simp only [State.endStep, effect_inputs, effect_stepCount, latchKeys_inputs, latchKeys_stepCount]

/-- Settles O16: an instruction changes no key and no input, and the timer stage uses up the head of the inputs. -/
theorem hostStepLeavesItsSnapshot : Obligations.HostStepLeavesItsSnapshot := by
  intro inp s t h
  obtain ⟨w, i, -, -, -, rfl⟩ := step_next_effect h
  simp

/-- Settles O17: the skip reads the latched keys, which are those supplied. -/
theorem keySkipsSeeTheirOwnSnapshot : Obligations.KeySkipsSeeTheirOwnSnapshot := by
  intro inp s w x k hw hk
  have hx : (s.reg x).toNat = k.val := hk
  have herr : ∀ i, Claims.operandError i s x = none := fun i => operandError_eq_none.2 (hx ▸ k.isLt)
  have hkey : (s.supply inp).latchKeys.key ((s.supply inp).latchKeys.nibble x) = inp.keys[k] := by
    rw [State.nibble_of_eq (s := (s.supply inp).latchKeys) hx, State.key, latchKeys_keys, input_supply]
  refine ⟨fun hd => ⟨_, hostStep_of_errorOf_none inp hw hd (herr _), ?skp⟩,
    fun hd => ⟨_, hostStep_of_errorOf_none inp hw hd (herr _), ?sknp⟩⟩
  case skp => simp only [endStep_pc, effect, skipIf_pc, hkey, latchKeys_pc, supply_pc]
  case sknp =>
    simp only [endStep_pc, effect, skipIf_pc, hkey, latchKeys_pc, supply_pc]
    cases inp.keys[k] <;> rfl

/-- Settles O18: each instruction moves its timer before the timer stage counts down. -/
theorem timerInstructionsMeetTheirStepsTicks : Obligations.TimerInstructionsMeetTheirStepsTicks := by
  intro inp s w x hw
  have hinput : ∀ i, (effect i (s.supply inp).latchKeys).input = inp := fun i => effect_input i _
  refine ⟨fun hd => ⟨_, hostStep_of_errorOf_none inp hw hd rfl, ?reads, ?delay⟩,
    fun hd => ⟨_, hostStep_of_errorOf_none inp hw hd rfl, ?setDelay, ?sound⟩,
    fun hd => ⟨_, hostStep_of_errorOf_none inp hw hd rfl, ?setSound, ?beep⟩⟩
  case reads => simp [effect]
  case delay => rw [endStep_dt, toNat_countDown, hinput]; rfl
  case setDelay => rw [endStep_dt, toNat_countDown, hinput]; rfl
  case sound => rw [endStep_st, toNat_countDown, hinput]; rfl
  case setSound => rw [endStep_st, toNat_countDown, hinput]; rfl
  case beep => rw [endStep_beep, beepEdge_eq_true, hinput]; rfl

/-- Settles O24: the word at 0x200 is 0, which the decoder rejects. -/
theorem stepBeforeLoadIsInvalidOpcode : Obligations.StepBeforeLoadIsInvalidOpcode := by
  intro inp
  have hw : fetchOpcode State.reset = .ok 0x0000 := rfl
  have hd : decode 0x0000 = .error (.invalid 0x0000) := rfl
  exact step_of_decode_error ((fetchOpcode_congr rfl rfl).trans hw) hd

/-- Settles O44: the head of the inputs is the one supplied. -/
theorem rndMasksTheSuppliedByte : Obligations.RndMasksTheSuppliedByte :=
  fun s inp _ _ => ⟨input_supply s inp, exec_of_errorOf_none rfl⟩

end Sys2Proof.Machine
end

section
/-! PROOF. 20_memory.md, 43_index_memory.md and 70_reset_and_hazards.md: the state after reset, and what is stored and
loaded. -/

namespace Sys2Proof.Machine

open Sys2Proof.Claims

/-! ### Reset -/

theorem unlisted_of_le {a : Nat} (h : 0x50 ≤ a) : unlisted a = 0 := by
  rw [unlisted, List.getElem?_eq_none h, Option.getD_none]

/-- Settles O20: reset memory lists no byte, so it reads as the glyph table and as 0 above it. -/
theorem resetMemoryHoldsTheGlyphs : Obligations.ResetMemoryHoldsTheGlyphs :=
  ⟨by decide, fun _ => unlisted_of_le⟩

/-- Settles O21, component by component of `State.reset`. -/
theorem resetRegistersAreZero : Obligations.ResetRegistersAreZero :=
  ⟨by decide, rfl, rfl, by decide, rfl, rfl, readCell_eq_false_of_display_eq_clearDisplay rfl, rfl, by decide⟩

/-- Settles O22: no stack entry is live. -/
theorem resetMeetsTheInvariant : Obligations.ResetMeetsTheInvariant where
  memCanonical := Memory.reset_wf
  pcBound := by decide
  liveEntries := fun _ hk hle => absurd hk (Nat.not_lt.2 hle)

/-! ### Memory -/

/-- Settles O25, by induction on the list in `Memory.read_write_from`. -/
theorem readGivesTheLastWrite : Obligations.ReadGivesTheLastWrite :=
  fun _ _ _ _ => Memory.read_write

section Canonical

variable {lo k a : Nat} {c : Byte} {r n : Memory}

theorem Memory.read_head : Memory.read ((k, c) :: r) k = c := by
  rw [Memory.read, if_neg (lt_irrefl k), if_pos rfl]

theorem Memory.read_above_head (h : k < a) : Memory.read ((k, c) :: r) a = r.read a := by
  rw [Memory.read, if_neg (by omega), if_neg (by omega)]

/-- The first entry of a canonical list is read there, and not in a list of higher addresses. -/
theorem Memory.read_head_ne (hm : Memory.wfFrom lo ((k, c) :: r) = true) (hn : Memory.wfFrom (k + 1) n = true) :
    Memory.read ((k, c) :: r) k ≠ n.read k := by
  obtain ⟨-, -, hc, -⟩ := Memory.wfFrom_cons.1 hm
  rwa [Memory.read_head, Memory.read_below hn (Nat.lt_succ_self k)]

theorem Memory.wfFrom_of_lt_head (hn : Memory.wfFrom lo ((k, c) :: r) = true) (h : a ≤ k) :
    Memory.wfFrom a ((k, c) :: r) = true := by
  obtain ⟨-, hrest⟩ := Memory.wfFrom_cons.1 hn
  exact Memory.wfFrom_cons.2 ⟨h, hrest⟩

/-- Canonical lists that read alike begin with the same entry, and their rests read alike. -/
theorem Memory.eq_of_read_eq {m : Memory} (hm : Memory.wfFrom lo m = true) (hn : Memory.wfFrom lo n = true)
    (h : ∀ a, m.read a = n.read a) : m = n := by
  induction m generalizing lo n with
  | nil =>
    cases n with
    | nil => rfl
    | cons e _ => exact absurd (h e.1).symm (Memory.read_head_ne hn rfl)
  | cons e r ih =>
    obtain ⟨k, c⟩ := e
    cases n with
    | nil => exact absurd (h k) (Memory.read_head_ne hm rfl)
    | cons e' r' =>
      obtain ⟨k', c'⟩ := e'
      obtain hlt | rfl | hgt := Nat.lt_trichotomy k k'
      · exact absurd (h k) (Memory.read_head_ne hm (Memory.wfFrom_of_lt_head hn hlt))
      · have hc : c = c' := by simpa only [Memory.read_head] using h k
        obtain ⟨-, -, -, hr⟩ := Memory.wfFrom_cons.1 hm
        obtain ⟨-, -, -, hr'⟩ := Memory.wfFrom_cons.1 hn
        have hrest : r = r' := by
          refine ih hr hr' fun a => ?_
          by_cases ha : k < a
          · simpa only [Memory.read_above_head ha] using h a
          · rw [Memory.read_below hr (by omega), Memory.read_below hr' (by omega)]
        rw [hc, hrest]
      · exact absurd (h k').symm (Memory.read_head_ne hn (Memory.wfFrom_of_lt_head hm hgt))

end Canonical

/-- Settles O26: the rising addresses and the entries that differ from reset make the list unique. -/
theorem memoryFormIsCanonical : Obligations.MemoryFormIsCanonical :=
  ⟨fun _ _ _ => Memory.write_wf, fun _ _ => Memory.eq_of_read_eq⟩

/-- A run of stores leaves its bytes in order. -/
theorem Memory.read_writeList_inside {m : Memory} {a k : Nat} {bs : List Byte} (hm : m.wf = true)
    (hin : a + bs.length ≤ 4096) (hk : k < bs.length) : (m.writeList a bs).read (a + k) = bs[k] := by
  rw [Memory.read_writeList hm hin, if_pos (Nat.le_add_right a k), Nat.add_sub_cancel_left, List.getElem?_eq_getElem hk,
    Option.getD_some]

theorem imageFits_iff {bytes : List Byte} : imageFits bytes = true ↔ bytes.length + 0x200 ≤ 4096 := decide_eq_true_iff

/-- Settles O29: the image is one run of stores from 0x200. -/
theorem loadProgramCopiesTheImage : Obligations.LoadProgramCopiesTheImage := by
  intro bytes s hm
  constructor
  · intro hlarge
    exact if_neg fun hfits => absurd (imageFits_iff.1 hfits) (by omega)
  · intro hfits
    have hin : 0x200 + bytes.length ≤ 4096 := by omega
    exact ⟨{ s with mem := s.mem.writeList 0x200 bytes }, if_pos (imageFits_iff.2 hfits), rfl, Memory.writeList_wf hm hin,
      fun k => Memory.read_writeList_inside hm hin k.isLt, fun _ => Memory.read_writeList_outside hm hin⟩

/-! ### Stores and loads from `I` -/

section Access

variable {s : State} {x : Reg}

/-- The error table on an access to the addresses `a` to `a + n`. -/
theorem accessError_run {a n : Nat} :
    (a + n < 4096 → accessError a (n + 1) = none) ∧
    (4096 ≤ a + n → accessError a (n + 1) = some (.memoryFault (max a 4096))) :=
  ⟨fun h => accessError_eq_none.2 (Or.inr h),
    fun h => accessError_eq_some.2 ⟨⟨Nat.succ_ne_zero n, Nat.lt_succ_of_le h⟩, rfl⟩⟩

theorem getElem_regsUpTo {k : Reg} (h : k ≤ x) :
    (s.regsUpTo x)[k.val]'((length_regsUpTo s x).symm ▸ Nat.lt_succ_of_le h) = s.v[k] := by
  simp [State.regsUpTo]

/-- The decimal digits of a byte are bytes. -/
theorem toNat_bcdDigits (b : Byte) :
    (bcdDigits b)[0].toNat = b.toNat / 100 ∧ (bcdDigits b)[1].toNat = b.toNat / 10 % 10 ∧
      (bcdDigits b)[2].toNat = b.toNat % 10 :=
  ⟨Nat.mod_eq_of_lt (by omega : b.toNat / 100 < 256), Nat.mod_eq_of_lt (by omega : b.toNat / 10 % 10 < 256),
    Nat.mod_eq_of_lt (by omega : b.toNat % 10 < 256)⟩

/-- A sequential instruction that loads registers: its frame is everything but `V` and `PC`. -/
theorem State.advance_loadRegs (s : State) (bytes : List Byte) :
    (s.loadRegs bytes).advance = { s with v := (s.loadRegs bytes).v, pc := s.pc + 2 } := by
  simp only [State.advance, State.loadRegs]

theorem getElem?_bytesAtI {n k : Nat} (h : k < n) : (s.bytesAtI n)[k]? = some (s.mem.read (s.base + k)) := by
  simp [State.bytesAtI, h]

end Access

/-- Settles O49: the digits are a run of three stores from `I`. -/
theorem ldBStoresTheDigits : Obligations.LdBStoresTheDigits := by
  intro s x hm
  refine ⟨fun hin => ?stores, fun hout => exec_of_errorOf_some (accessError_run.2 hout)⟩
  have hrun : s.base + (bcdDigits (s.reg x)).length ≤ 4096 := hin
  have hread : ∀ (k : Nat) (hk : k < 3), (effect (.ldB x) s).mem.read (s.i.toNat + k) = (bcdDigits (s.reg x))[k] :=
    fun _ hk => Memory.read_writeList_inside hm hrun hk
  obtain ⟨hundreds, tens, ones⟩ := toNat_bcdDigits (s.reg x)
  refine ⟨_, exec_of_errorOf_none (accessError_run.1 hin), rfl, ?_, ?_, ?_, fun a ha => ?_⟩
  · exact (congrArg BitVec.toNat (hread 0 (by decide))).trans hundreds
  · exact (congrArg BitVec.toNat (hread 1 (by decide))).trans tens
  · exact (congrArg BitVec.toNat (hread 2 (by decide))).trans ones
  · exact Memory.read_writeList_outside hm hrun (by rw [length_bcdDigits, State.base]; omega)

/-- Settles O50: the registers are a run of `x + 1` stores from `I`. -/
theorem stRegsStoresV0ToVx : Obligations.StRegsStoresV0ToVx := by
  intro s x hm
  refine ⟨fun hin => ?stores, fun hout => exec_of_errorOf_some (accessError_run.2 hout)⟩
  have hrun : s.base + (s.regsUpTo x).length ≤ 4096 := by rwa [length_regsUpTo]
  refine ⟨_, exec_of_errorOf_none (accessError_run.1 hin), rfl, fun k hk => ?_, fun a ha => ?_⟩
  · exact (Memory.read_writeList_inside hm hrun _).trans (getElem_regsUpTo hk)
  · exact Memory.read_writeList_outside hm hrun (by rw [length_regsUpTo]; exact ha)

/-- Settles O51: register `k` gets byte `k` of the run, where there is one. -/
theorem ldRegsLoadsV0ToVx : Obligations.LdRegsLoadsV0ToVx := by
  intro s x
  refine ⟨fun hin => ?loads, fun hout => exec_of_errorOf_some (accessError_run.2 hout)⟩
  refine ⟨_, exec_of_errorOf_none (accessError_run.1 hin), State.advance_loadRegs s _, fun k hk => ?_, fun k hk => ?_⟩
  · have hload := reg_loadRegs s (s.bytesAtI (x.val + 1)) k
    rwa [getElem?_bytesAtI (Nat.lt_succ_of_le hk), Option.getD_some] at hload
  · exact reg_loadRegs_of_length_le ((length_bytesAtI s _).le.trans hk)

/-- Settles O27: the two bytes of the opcode are entries `k` and `k + 1` of the run FX55 stored. -/
theorem storedRegistersAreFetchedAsCode : Obligations.StoredRegistersAreFetchedAsCode := by
  intro s t x k k' a hm ht hk' hle ha
  obtain ⟨he, -⟩ := exec_eq_next.1 ht
  have hin : s.i.toNat + x.val < 4096 := by
    have := (accessError_eq_none (a := s.base)).1 he
    rw [State.base] at this
    omega
  obtain ⟨u, hu, -, hread, -⟩ := (stRegsStoresV0ToVx s x hm).1 hin
  obtain rfl : u = t := Host.Outcome.next.inj (hu.symm.trans ht)
  have hlo : a.toNat + 1 = s.i.toNat + k'.val := by omega
  have hx : k'.val ≤ x.val := hle
  rw [fetchOpcode_ok (s := { u with pc := a }) (by simp only; omega)]
  simp only [hlo, hread k' hle]
  simp only [ha, hread k (Fin.le_def.2 (by omega))]

end Sys2Proof.Machine
end

section
/-! PROOF. 41_control_flow.md, 42_alu.md, 43_index_memory.md and 44_input_timers.md: call, return, the unmasked jump, the
operations that report a flag, the index sums and the skips on a key. -/

namespace Sys2Proof.Machine

open Sys2Proof.Claims

/-! ### Control transfer -/

/-- Settles O33: a pop leaves the stack as it is, and `SP` above 0 does not wrap. -/
theorem retPopsTheStack : Obligations.RetPopsTheStack := by
  refine fun s => ⟨fun hsp => exec_of_errorOf_some (if_pos hsp), fun hsp => ?_⟩
  exact ⟨_, exec_of_errorOf_none (if_neg (Nat.ne_of_gt hsp)), Nat.sub_add_cancel hsp, rfl⟩

/-- Settles O35: the entry is written at the new `SP`, which does not wrap below 15. -/
theorem callPushesItsOwnAddress : Obligations.CallPushesItsOwnAddress := by
  refine fun s nnn => ⟨fun hsp => exec_of_errorOf_some (if_pos hsp), fun hsp => ?_⟩
  have he : errorOf s (.call nnn) = none := if_neg (Nat.ne_of_lt hsp)
  refine ⟨_, exec_of_errorOf_none he, val_sp_add_one he, ?pushed, fun k hk => ?kept, rfl⟩
  case pushed => exact Vector.getElem_set_self _
  case kept => exact Vector.getElem_set_ne (s.sp + 1 : Fin 16).isLt k.isLt fun h => hk (Fin.ext h.symm)

/-- Settles O37: both parts of the sum are below 4096, so 16 bits hold it. -/
theorem jumpOffsetIsNotMasked : Obligations.JumpOffsetIsNotMasked :=
  fun s nnn => ⟨_, exec_of_errorOf_none rfl, rfl, toNat_offsetTarget nnn s.v[0]⟩

/-! ### Operations that report a flag -/

theorem toNat_flagByte (p : Prop) [Decidable p] : (flagByte (decide p)).toNat = if p then 1 else 0 := by
  rw [flagByte, apply_ite BitVec.toNat]
  simp only [decide_eq_true_eq]
  rfl

theorem toNat_aluSub_flag (a b : Byte) : (flagByte (aluSub a b).flag).toNat = if b.toNat ≤ a.toNat then 1 else 0 :=
  toNat_flagByte _

/-- The sum `a + 256 - b` is taken modulo 256, as the difference is. -/
theorem toNat_aluSub_result (a b : Byte) : ((aluSub a b).result.toNat : Int) = ((a.toNat : Int) - b.toNat) % 256 := by
  have hmod : (aluSub a b).result.toNat = (a.toNat + 256 - b.toNat) % 256 := BitVec.toNat_ofNat _ _
  omega

/-- Settles O41: flag and result are the carry and the sum of `aluAdd`. -/
theorem addWritesCarryThenSum : Obligations.AddWritesCarryThenSum :=
  fun _ _ _ => ⟨_, _, exec_of_errorOf_none rfl, toNat_flagByte _, BitVec.toNat_ofNat _ _⟩

/-- Settles O42: both operations are `aluSub`, with their operands in either order. -/
theorem subtractionsWriteNotBorrowThenDifference : Obligations.SubtractionsWriteNotBorrowThenDifference :=
  fun _ _ _ => ⟨⟨_, _, exec_of_errorOf_none rfl, toNat_aluSub_flag _ _, toNat_aluSub_result _ _⟩,
    ⟨_, _, exec_of_errorOf_none rfl, toNat_aluSub_flag _ _, toNat_aluSub_result _ _⟩⟩

theorem toNat_aluShr (a : Byte) :
    (flagByte (aluShr a).flag).toNat = a.toNat % 2 ∧ (aluShr a).result.toNat = a.toNat / 2 := by
  refine ⟨(toNat_flagByte _).trans ?_, Nat.mod_eq_of_lt (by omega : a.toNat / 2 < 256)⟩
  split
  all_goals omega

theorem toNat_aluShl (a : Byte) :
    (flagByte (aluShl a).flag).toNat = a.toNat / 128 ∧ (aluShl a).result.toNat = a.toNat * 2 % 256 := by
  refine ⟨(toNat_flagByte _).trans ?_, BitVec.toNat_ofNat _ _⟩
  split
  all_goals omega

/-- Settles O43: flag and result are those of `aluShr` and `aluShl`, which read `V[x]` alone. -/
theorem shiftsWriteTheLostBitThenResult : Obligations.ShiftsWriteTheLostBitThenResult :=
  fun s x _ => ⟨⟨_, _, exec_of_errorOf_none rfl, toNat_aluShr (s.reg x)⟩,
    ⟨_, _, exec_of_errorOf_none rfl, toNat_aluShl (s.reg x)⟩⟩

/-! ### The index register -/

/-- Settles O47: the sum is taken in 16 bits. -/
theorem addIWrapsAtSixteenBits : Obligations.AddIWrapsAtSixteenBits := by
  refine fun s x => ⟨_, exec_of_errorOf_none rfl, rfl, ?_⟩
  have hx : (zext16 (s.reg x)).toNat = s.v[x].toNat := BitVec.toNat_setWidth_of_le (by decide : 8 ≤ 16)
  exact (BitVec.toNat_add _ _).trans (congrArg (fun n => (s.i.toNat + n) % 65536) hx)

/-- The largest glyph address is 75. -/
theorem toNat_glyphAddress (g : Fin 16) : (glyphAddress g).toNat = g.val * 5 :=
  Nat.mod_eq_of_lt (by omega : g.val * 5 < 65536)

/-- Settles O48: the operand of FX29 is a glyph number up to 15. -/
theorem ldFPointsAtTheGlyph : Obligations.LdFPointsAtTheGlyph := by
  refine fun s x => ⟨fun hx => ?_, fun hx => exec_of_errorOf_some (if_pos hx)⟩
  refine ⟨_, exec_of_errorOf_none (if_neg (Nat.not_lt.2 hx)), rfl, ?_⟩
  rw [effect, advance_i, setI_i, toNat_glyphAddress, ← State.val_nibble (Nat.lt_succ_of_le hx), State.reg]

/-! ### Keys -/

theorem State.skipIf_eq_ite (s : State) (c : Bool) : s.skipIf c = { s with pc := s.pc + if c = true then 4 else 2 } := rfl

theorem State.skipIf_not_eq_ite (s : State) (c : Bool) :
    s.skipIf (!c) = { s with pc := s.pc + if c = true then 2 else 4 } := by
  cases c <;> rfl

/-- Settles O52: both skips read the key that `V[x]` names. -/
theorem keySkips : Obligations.KeySkips := by
  refine fun s x => ⟨fun k hk => ?_, fun hx => ⟨exec_of_errorOf_some (if_pos hx), exec_of_errorOf_some (if_pos hx)⟩⟩
  have hx : (s.reg x).toNat = k.val := hk
  have herr : ∀ i, operandError i s x = none := fun i => operandError_eq_none.2 (hx ▸ k.isLt)
  constructor
  · rw [exec_of_errorOf_none (i := .skp x) (herr _), effect, State.nibble_of_eq hx, State.skipIf_eq_ite, State.key]
  · rw [exec_of_errorOf_none (i := .sknp x) (herr _), effect, State.nibble_of_eq hx, State.skipIf_not_eq_ite, State.key]

end Sys2Proof.Machine
end

section
/-! PROOF. 40_display.md: `DXYN` toggles the cells its set pixels fall on, and a second draw restores them (R74 to
R76). -/

namespace Sys2Proof.Machine

open Sys2Proof.Claims

section Draw

variable {s t : State} {x y : Reg} {n : Fin 16}

/-! ### The cells a sprite hits are those its set pixels light -/

/-- A pixel falls on the cell of its column and row, each axis wrapped on its own (40_display.md R75). -/
theorem cellIndex_eq_iff {x0 y0 : Byte} {col r : Nat} {column : Fin 64} {row : Fin 32} :
    cellIndex x0 y0 col r = column.val + 64 * row.val ↔
      column.val = (x0.toNat + col) % 64 ∧ row.val = (y0.toNat + r) % 32 := by
  simp only [cellIndex, Config.displayWidth, Config.displayHeight]
  omega

theorem getElem_bytesAtI {len k : Nat} (h : k < (s.bytesAtI len).length) :
    (s.bytesAtI len)[k] = s.mem.read (s.i.toNat + k) := by
  simp [State.bytesAtI, State.base]

theorem hits_iff_lit {column : Fin 64} {row : Fin 32} :
    Hits (s.reg x) (s.reg y) 0 (s.bytesAtI n.val) (column.val + 64 * row.val) ↔ Lit s x y n column row := by
  simp only [Hits, Lit, getElem_bytesAtI, length_bytesAtI, Nat.zero_add, cellIndex_eq_iff, exists_prop, spritePixel,
    State.reg]

/-- A cell of the display is a column and a row. -/
theorem exists_hits_iff {P : Nat → Prop} :
    (∃ c, Hits (s.reg x) (s.reg y) 0 (s.bytesAtI n.val) c ∧ P c) ↔
      ∃ (column : Fin 64) (row : Fin 32), Lit s x y n column row ∧ P (column.val + 64 * row.val) := by
  constructor
  · rintro ⟨c, hhit, hP⟩
    have hc : c < 2048 := by
      obtain ⟨r, col, -, -, -, rfl⟩ := hhit
      exact cellIndex_lt ..
    have hsplit : c % 64 + 64 * (c / 64) = c := Nat.mod_add_div c 64
    refine ⟨⟨c % 64, by omega⟩, ⟨c / 64, by omega⟩, hits_iff_lit.1 ?_, ?_⟩
    · exact hsplit.symm ▸ hhit
    · exact hsplit.symm ▸ hP
  · rintro ⟨column, row, hlit, hP⟩
    exact ⟨_, hits_iff_lit.2 hlit, hP⟩

/-! ### One draw -/

theorem exec_drw (h : n.val = 0 ∨ s.i.toNat + n.val ≤ 4096) :
    exec (.drw x y n) s = .next { s with
      v := s.v.set 15 (flagByte (s.canvas x y n).coll)
      display := (s.canvas x y n).cells
      dirty := true
      pc := s.pc + 2 } :=
  exec_of_errorOf_none (accessError_eq_none.2 h)

theorem flagByte_eq_one {f : Bool} : flagByte f = 1 ↔ f = true := by cases f <;> decide

theorem flagByte_cases (f : Bool) : flagByte f = 1 ∨ flagByte f = 0 := by cases f <;> decide

/-- What a draw does to each cell, and when it collides. -/
theorem canvas_spec (s : State) (x y : Reg) (n : Fin 16) :
    (∀ (column : Fin 64) (row : Fin 32), cell (s.canvas x y n).cells (column.val + 64 * row.val) = true ↔
      (readCell s column row = true ↔ ¬ Lit s x y n column row)) ∧
    ((s.canvas x y n).coll = true ↔ ∃ column row, Lit s x y n column row ∧ readCell s column row = true) := by
  have hlen : (s.bytesAtI n.val).length ≤ 32 := by
    rw [length_bytesAtI]
    omega
  obtain ⟨hcell, hcoll⟩ := blit_spec (s.reg x) (s.reg y) (s.bytesAtI n.val) s.display hlen
  exact ⟨fun _ _ => (hcell _).trans (iff_congr Iff.rfl (not_congr hits_iff_lit)), hcoll.trans exists_hits_iff⟩

/-! ### A second draw -/

/-- A draw with `x` and `y` not 15 leaves what the next draw reads: `I`, memory and the two coordinates. -/
theorem lit_effect_drw (hx : x ≠ 15) (hy : y ≠ 15) (column : Fin 64) (row : Fin 32) :
    Lit (effect (.drw x y n) s) x y n column row ↔ Lit s x y n column row := by
  have hvx : (effect (.drw x y n) s).v[x] = s.v[x] := effect_reg (decide_eq_false hx)
  have hvy : (effect (.drw x y n) s).v[y] = s.v[y] := effect_reg (decide_eq_false hy)
  have hi : (effect (.drw x y n) s).i = s.i := effect_i rfl
  have hmem : (effect (.drw x y n) s).mem = s.mem := rfl
  simp only [Lit, hvx, hvy, hi, hmem]

theorem display_ext_readCell (h : ∀ column row, readCell s column row = readCell t column row) :
    s.display = t.display := by
  refine display_ext fun c hc => ?_
  have hsplit : c % 64 + 64 * (c / 64) = c := Nat.mod_add_div c 64
  simpa only [readCell, Config.displayWidth, hsplit] using h ⟨c % 64, by omega⟩ ⟨c / 64, by omega⟩

end Draw

/-- Settles O31: the blitter toggles the cells its pixels hit, once each. -/
theorem drawTogglesTheLitCells : Obligations.DrawTogglesTheLitCells := by
  intro s x y n hin
  obtain ⟨hcell, hcoll⟩ := canvas_spec s x y n
  have hflag : (s.v.set 15 (flagByte (s.canvas x y n).coll))[15] = flagByte (s.canvas x y n).coll :=
    Vector.getElem_set_self _
  refine ⟨_, exec_drw hin, ?frame, hcell, ?bit, ?collision⟩
  case frame => rw [hflag]
  case bit => exact hflag.symm ▸ flagByte_cases _
  case collision => exact hflag.symm ▸ flagByte_eq_one.trans hcoll

/-- Settles O32: both draws light the same cells, so the second toggles each cell back, and it collides on the cells that
are set after the first, which were clear before it. -/
theorem doubleDrawRestoresTheDisplay : Obligations.DoubleDrawRestoresTheDisplay := by
  intro s t u x y n hx hy ht hu
  obtain ⟨hes, hte⟩ := exec_eq_next.1 ht
  obtain ⟨het, -⟩ := exec_eq_next.1 hu
  obtain ⟨t', ht', -, hcellT, -, -⟩ := drawTogglesTheLitCells s x y n (accessError_eq_none.1 hes)
  obtain ⟨u', hu', -, hcellU, -, hcollU⟩ := drawTogglesTheLitCells t x y n (accessError_eq_none.1 het)
  obtain rfl : t' = t := Host.Outcome.next.inj (ht'.symm.trans ht)
  obtain rfl : u' = u := Host.Outcome.next.inj (hu'.symm.trans hu)
  have hlit : ∀ column row, Lit t' x y n column row ↔ Lit s x y n column row := by
    rw [hte]
    exact lit_effect_drw hx hy
  refine ⟨display_ext_readCell fun column row => Bool.eq_iff_iff.2 ?_, ?_⟩
  · rw [hcellU, hcellT, hlit]
    tauto
  · rw [hcollU]
    refine exists_congr fun column => exists_congr fun row => ?_
    rw [hlit, hcellT, ← Bool.not_eq_true]
    tauto

end Sys2Proof.Machine
end
